-- ==== Sys2Proof/Word.lean ====
section
/-! DEFINITION. The word types of the hardware (00_scope.md R11: unsigned bit vectors, bit 0 least significant). -/

namespace Sys2Proof

/-- A character: one byte of a key, the column index of a table row (R15, R51). -/
abbrev Byte := BitVec 8

/-- The two selector bits `CMD[65:64]`, that is WIDE then TWIST (30_encoding.md R70). -/
abbrev Variant := BitVec 2

/-- The key field `CMD[63:0]` of a command (30_encoding.md R70). -/
abbrev KeyField := BitVec 64

/-- A command word `CMD` of 66 bits (30_encoding.md R70). -/
abbrev CommandWord := BitVec 66

end Sys2Proof
end

