-- ==== Sys2Proof/Syntax.lean ====
section
/-! DEFINITION. The instruction set: the four hash operations (00_scope.md R3), one constructor per row of the opcode
table. An operand holds the key bits the operation uses and no others (30_encoding.md R72). -/

namespace Sys2Proof

inductive Instr where
  /-- SimpleTab32, 40_simple.md R90. -/
  | simpleTab32 (key : BitVec 32)
  /-- TwistedTab32, 41_twisted.md R110. -/
  | twistedTab32 (key : BitVec 32)
  /-- SimpleTab64, 40_simple.md R91. -/
  | simpleTab64 (key : BitVec 64)
  /-- TwistedTab64, 41_twisted.md R111. -/
  | twistedTab64 (key : BitVec 64)
  deriving DecidableEq, Repr

/-- The operation's written name (30_encoding.md R76). -/
def Instr.mnemonic : Instr → String
  | .simpleTab32 _ => "SimpleTab32"
  | .twistedTab32 _ => "TwistedTab32"
  | .simpleTab64 _ => "SimpleTab64"
  | .twistedTab64 _ => "TwistedTab64"

/-- The selector value of the operation, WIDE then TWIST (30_encoding.md R71). -/
def Instr.variant : Instr → Variant
  | .simpleTab32 _ => 0b00#2
  | .twistedTab32 _ => 0b01#2
  | .simpleTab64 _ => 0b10#2
  | .twistedTab64 _ => 0b11#2

/-- The key field the assembler form writes: a 32-bit key stands in bits 31 to 0 under zeros (30_encoding.md R76). -/
def Instr.keyField : Instr → KeyField
  | .simpleTab32 key => key.setWidth 64
  | .twistedTab32 key => key.setWidth 64
  | .simpleTab64 key => key
  | .twistedTab64 key => key

end Sys2Proof
end

