-- ==== Sys2Proof/WellFormed.lean ====
section
/-! DEFINITION. Well-formedness. Every key of the right width and every selector value is legal (30_encoding.md R74), and
the widths are in the types, so no instruction is ill-formed; the one check there is concerns a raw number that is to be
a command word: it has 66 bits (R70). -/

namespace Sys2Proof

/-- A raw number is a command word when it fits the one format's 66 bits (30_encoding.md R70). -/
def CommandWord.wellFormed (raw : Nat) : Bool := decide (raw < 2 ^ 66)

/-- No instruction is ill-formed: every key value is legal (30_encoding.md R74). -/
def Instr.wellFormed : Instr → Bool
  | .simpleTab32 _ => true
  | .twistedTab32 _ => true
  | .simpleTab64 _ => true
  | .twistedTab64 _ => true

end Sys2Proof
end

