-- ==== Sys2Proof/Decode.lean ====
section
/-! DEFINITION. The command word's fields, its decoder and its encoder (30_encoding.md R70 to R76). -/

namespace Sys2Proof

/-- `CMD[65:64]` (R70). -/
def CommandWord.variant (w : CommandWord) : Variant := w.extractLsb' 64 2

/-- `CMD[63:0]` (R70). -/
def CommandWord.keyField (w : CommandWord) : KeyField := w.extractLsb' 0 64

/-- `CMD` from its two fields, the selector in the more significant position (R70). -/
def packCommand (variant : Variant) (key : KeyField) : CommandWord := variant ++ key

/-- The operation a selector and a key field stand for. The 32-bit operations take `CMD[31:0]` and ignore
`CMD[63:32]` (R71, R72). -/
def decodeFields (variant : Variant) (key : KeyField) : Instr :=
  match variant.getLsbD 1, variant.getLsbD 0 with
  | false, false => .simpleTab32 (key.extractLsb' 0 32)
  | false, true => .twistedTab32 (key.extractLsb' 0 32)
  | true, false => .simpleTab64 key
  | true, true => .twistedTab64 key

/-- The decoder: a total function from 66-bit words to the four operations (R74). -/
def decode (w : CommandWord) : Instr := decodeFields w.variant w.keyField

/-- Why a raw number is no command. The hardware has no such case (R74): this is about numbers that are not 66-bit
words at all. Log entry 7. -/
inductive DecodeError where
  /-- A bit above bit 65 is set: there is no command format of more than 66 bits (R70). -/
  | widerThanCommand
  deriving DecidableEq, Repr

/-- The decoder on any number, rejecting by name what is not a command word (R70, log entry 7). -/
def decodeRaw (raw : Nat) : Except DecodeError Instr :=
  if CommandWord.wellFormed raw then .ok (decode (BitVec.ofNat 66 raw)) else .error .widerThanCommand

/-- The number of a table row's word: bits at and above `nbits` are 0. -/
def tableWord (nbits w : Nat) : Nat := w % 2 ^ nbits

/-- The instruction the decoder reads from the opcode table's numbering of a word: bit 0 is bit 0 of `CMD`. -/
def decodeTableWord (nbits w : Nat) : Option Instr :=
  match decodeRaw (tableWord nbits w) with
  | .ok i => some i
  | .error _ => none

/-- The encoder: the assembler form of an operation, with the ignored bits 0 (R71, R76). -/
def encode (i : Instr) : CommandWord := packCommand i.variant i.keyField

end Sys2Proof
end

