-- ==== Sys2Proof/Config.lean ====
section
/-! DEFINITION. What an implementation fixes: the names and shapes of the ROM banks, the open parameter TABLE,
and the values the spec leaves unspecified at power-on. -/

namespace Sys2Proof

/-- The four banks of `character_table_rom` (20_memory.md R40). -/
inductive BankId where
  | st32
  | tt32
  | st64
  | tt64
  deriving DecidableEq, Repr

/-- Rows of a bank: one per key byte (R7, R40). -/
@[reducible] def BankId.rows : BankId → Nat
  | .st32 => 4
  | .tt32 => 4
  | .st64 => 8
  | .tt64 => 8

/-- Bits of one cell: W for a simple bank, 2W for a twisted one (R7, R40). -/
@[reducible] def BankId.cellWidth : BankId → Nat
  | .st32 => 32
  | .tt32 => 64
  | .st64 => 64
  | .tt64 => 128

/-- Cells of a bank: 256 columns in each row (R7, R40). -/
@[reducible] def BankId.cells (b : BankId) : Nat := b.rows * 256

/-- The parameter TABLE: four total functions from row and column to a cell; the shape of each bank is part of the
type (00_scope.md R9, 20_memory.md R46). -/
structure Config.Table where
  st32 : Fin 4 → Byte → BitVec 32
  tt32 : Fin 4 → Byte → BitVec 64
  st64 : Fin 8 → Byte → BitVec 64
  tt64 : Fin 8 → Byte → BitVec 128
  deriving Inhabited

/-- The contents published before the first step (R9, R43, R173). The spec gives no value and no default, so none is
given here: nothing can be proved about a cell of it. Log entry 1. -/
opaque Config.table : Config.Table

/-- `OUT_VALID` at power-on, before the first step: any value (R32, R171). Log entry 5. -/
opaque Config.powerOnValid : Bool

/-- `OUT_HASH` at power-on, before the first step: any value (R32, R171). Log entry 5. -/
opaque Config.powerOnHash : BitVec 64

end Sys2Proof
end

