-- ==== Sys2Proof/Machine/State.lean ====
section
/-! DEFINITION. The engine's state as plain data, the host's inputs, the reasons a step can stop, and the state after
reset (10_state.md R20 to R33, 20_memory.md R40 to R48, 42_engine.md R139). -/

namespace Sys2Proof.Machine

/-- One ROM bank of `w`-bit cells: the listed cells, each under its word address `row*256 + column` (20_memory.md R41).
A cell is one indivisible word (R48), so it is the unit of this memory. Log entry 2. -/
abbrev Bank (w : Nat) := List (Nat × BitVec w)

/-- What an unlisted address reads as. It is a convention of writing a table down, not a content: `Bank.ofTable` lists
every cell that differs from it. Log entry 2. -/
def Bank.unlisted {w : Nat} : BitVec w := 0#w

/-- The canonical form from address `low` on: addresses strictly rising and inside the bank, no entry equal to what an
unlisted address reads as. -/
def Bank.wfFrom {w : Nat} (size : Nat) : Nat → Bank w → Bool
  | _, [] => true
  | low, (a, v) :: rest =>
    decide (low ≤ a) && decide (a < size) && (v != Bank.unlisted) && Bank.wfFrom size (a + 1) rest

/-- The canonical form of a bank of `size` cells: equal tables are equal data (the model's choice: log entry 2). -/
def Bank.wf {w : Nat} (size : Nat) (bank : Bank w) : Bool := Bank.wfFrom size 0 bank

/-- The cells of `cell` at the given addresses, less those an unlisted address already gives. -/
def Bank.listCells {w : Nat} (cell : Nat → BitVec w) : List Nat → Bank w
  | [] => []
  | a :: rest =>
    if cell a = Bank.unlisted then Bank.listCells cell rest else (a, cell a) :: Bank.listCells cell rest

/-- The cell a table gives for a word address: the row is the address over 256, the column its low 8 bits (R41). -/
def Bank.tableCell {w : Nat} (rows : Nat) (table : Fin rows → Byte → BitVec w) (address : Nat) : BitVec w :=
  if h : address / 256 < rows then table ⟨address / 256, h⟩ (BitVec.ofNat 8 address) else Bank.unlisted

/-- A bank filled with one component of TABLE, row `i` and column `c` at address `i*256 + c` (R41, R45). -/
def Bank.ofTable {w : Nat} (rows : Nat) (table : Fin rows → Byte → BitVec w) : Bank w :=
  Bank.listCells (Bank.tableCell rows table) (List.range' 0 (rows * 256))

/-- `character_table_rom`: four independent banks (20_memory.md R40). -/
structure Memory where
  st32 : Bank 32
  tt32 : Bank 64
  st64 : Bank 64
  tt64 : Bank 128
  deriving DecidableEq, Repr

/-- Every bank is in canonical form within its own size (R40). -/
def Memory.wf (m : Memory) : Bool :=
  m.st32.wf BankId.st32.cells && m.tt32.wf BankId.tt32.cells
    && m.st64.wf BankId.st64.cells && m.tt64.wf BankId.tt64.cells

/-- The ROM filled with TABLE, all four banks (R9, R173). -/
def Memory.ofTable (table : Config.Table) : Memory where
  st32 := Bank.ofTable 4 table.st32
  tt32 := Bank.ofTable 4 table.tt32
  st64 := Bank.ofTable 8 table.st64
  tt64 := Bank.ofTable 8 table.tt64

/-- The levels of the request pins in one step, each a defined bit (42_engine.md R139). -/
structure Pins where
  rst : Bool
  reqValid : Bool
  reqVariant : Variant
  reqKey : KeyField
  deriving DecidableEq, Repr

/-- What the host presents in one step: exactly one of three inputs (30_encoding.md R75). -/
inductive Input where
  | reset
  | idle
  | cmd (w : CommandWord)
  deriving DecidableEq, Repr

/-- The architectural state: the four ROM banks and the two output registers (10_state.md R20), and beside them the
levels the host will drive on the request pins, one record a step, the next one first (the model's own field: log
entry 3). -/
structure State where
  rom : Memory
  outValid : Bool
  outHash : BitVec 64
  inputs : List Pins
  deriving DecidableEq, Repr

/-- The reasons a step can stop with a fault: there are none, the set of exceptions is empty and the step is total
(60_exceptions.md R150, 42_engine.md R131). -/
inductive Fault where
  deriving DecidableEq, Repr

/-- The reasons a step can be refused. No arm of `exec` uses one: every row of the opcode table has its meaning. -/
inductive Refusal where
  /-- Raised by an arm of `exec` whose instruction has no meaning yet (safe: the model stops). No arm raises it. -/
  | notModelled (mnemonic : String)
  deriving DecidableEq, Repr

/-- The engine's one-step outcome. -/
abbrev Outcome := Host.Outcome State Fault Refusal

/-- The machine right after reset: both output registers 0, the ROM as published (10_state.md R32, 70 R172), and no
input waiting (log entry 4). -/
def State.reset : State where
  rom := Memory.ofTable Config.table
  outValid := false
  outHash := 0#64
  inputs := []

/-- The machine at power-on, before the first step: the output registers unspecified (70 R171, log entry 5). -/
def State.powerOn : State where
  rom := Memory.ofTable Config.table
  outValid := Config.powerOnValid
  outHash := Config.powerOnHash
  inputs := []

end Sys2Proof.Machine
end

