-- ==== Sys2Proof/Machine/Flags.lean ====
section
/-! DEFINITION. The one status bit, `OUT_VALID`, and the response register written with it. No operation computes a
carry, zero, overflow or sign flag (10_state.md R27). -/

namespace Sys2Proof.Machine

/-- Write both output registers, as every step does (10_state.md R20, R33). -/
def State.setOutputs (valid : Bool) (hash : BitVec 64) (s : State) : State :=
  { s with outValid := valid, outHash := hash }

/-- The registers after a step that accepted a command: `OUT_VALID` is 1 and `OUT_HASH` the hash (R22, R23, R131). -/
def State.respond (hash : BitVec 64) (s : State) : State := s.setOutputs true hash

/-- The registers after an `Idle` step: cleared, not held (R131, D11). -/
def State.noResponse (s : State) : State := s.setOutputs false 0#64

/-- The registers after a `Reset` step: cleared; the ROM is not touched (R32, R131, 70 R170, R172). -/
def State.resetOutputs (s : State) : State := s.setOutputs false 0#64

/-- Pin `rsp_valid`: the register `OUT_VALID` (42_engine.md R139). -/
def State.rspValid (s : State) : Bool := s.outValid

/-- Pin `rsp_hash`: the register `OUT_HASH` (42_engine.md R139). -/
def State.rspHash (s : State) : BitVec 64 := s.outHash

end Sys2Proof.Machine
end

