-- ==== Sys2Proof/Machine/Operands.lean ====
section
/-! DEFINITION. The operands: the characters of a key, the low byte and the upper half of a twisted accumulator, where a
32-bit result stands on the 64-bit port, and which input the pins present. -/

namespace Sys2Proof.Machine

/-- Character `i` of a key, byte 0 least significant: `key[8*i+7 : 8*i]` (20_memory.md R47). -/
def character {w : Nat} (key : BitVec w) (i : Nat) : Byte := key.extractLsb' (8 * i) 8

/-- `h & 0xFF` as a byte: bits 7 to 0 of the whole double-width accumulator (41_twisted.md R110, R111). -/
def lowByte {c : Nat} (h : BitVec c) : Byte := h.extractLsb' 0 8

/-- `(h >> W)` cut to `W` bits: the upper half of a `2W`-bit accumulator (41_twisted.md R110, R113). -/
def upperHalf {c : Nat} (w : Nat) (h : BitVec c) : BitVec w := (h >>> w).setWidth w

/-- A 32-bit hash on the 64-bit response port: zero-extended (42_engine.md R132). -/
def placeHash32 (hash : BitVec 32) : BitVec 64 := hash.setWidth 64

/-- A 64-bit hash on the 64-bit response port (42_engine.md R132). -/
def placeHash64 (hash : BitVec 64) : BitVec 64 := hash

/-- The input of a step, from the pins: `rst` wins over `req_valid` (30_encoding.md R75, 60 R154, 70 R170). -/
def Pins.input (p : Pins) : Input :=
  if p.rst then .reset
  else if p.reqValid then .cmd (packCommand p.reqVariant p.reqKey)
  else .idle

/-- The pins that present a command word: `rst` = 0, `req_valid` = 1 (30_encoding.md R75, 42_engine.md R139). -/
def Pins.ofCommand (w : CommandWord) : Pins where
  rst := false
  reqValid := true
  reqVariant := w.variant
  reqKey := w.keyField

end Sys2Proof.Machine
end

