-- ==== Sys2Proof/Machine/Ops.lean ====
section
/-! DEFINITION. The named operations: addressing and reading the ROM, the accumulation both algorithms share, and taking
the input of a step. There is no memory write (20_memory.md R43) and no exception to take or to return from
(60_exceptions.md R150, R155), so no operation stands for one. -/

namespace Sys2Proof.Machine

/-- Word address of the cell of row `row` and column `column` (20_memory.md R41). -/
def cellAddress (row : Nat) (column : Byte) : Nat := row * 256 + column.toNat

/-- The cell at a word address. Total, no side effect (20_memory.md R42). -/
def Bank.read {w : Nat} : Bank w → Nat → BitVec w
  | [], _ => Bank.unlisted
  | (a, v) :: rest, address => if a = address then v else Bank.read rest address

/-- A bank of the ROM by name. -/
def Memory.bank (m : Memory) : (b : BankId) → Bank b.cellWidth
  | .st32 => m.st32
  | .tt32 => m.tt32
  | .st64 => m.st64
  | .tt64 => m.tt64

/-- `MemRead((B, a), Wc)`: the cell at word address `a` of bank `B` (00_scope.md R13, 20_memory.md R42). -/
def memRead (m : Memory) (b : BankId) (address : Nat) : BitVec b.cellWidth := (m.bank b).read address

/-- Exclusive or into `h` of one cell in each listed row, at the key's character of that row (40_simple.md R90, R91;
41_twisted.md R110, R111 step 2). The order of the rows cannot be seen (20_memory.md R52); this is the pseudocode's. -/
def xorRows {c w : Nat} (bank : Bank c) (key : BitVec w) : List Nat → BitVec c → BitVec c
  | [], h => h
  | i :: rest, h => xorRows bank key rest (h ^^^ bank.read (cellAddress i (character key i)))

/-- Simple tabulation over `rows` rows: the accumulator starts at 0 and is the result (40_simple.md R90, R91). -/
def simpleHash {w : Nat} (rows : Nat) (bank : Bank w) (key : BitVec w) : BitVec w :=
  xorRows bank key (List.range' 0 rows) 0#w

/-- The twisted accumulator after all rows but the last (41_twisted.md R110 steps 1 and 2). -/
def twistedPrefix {c w : Nat} (rows : Nat) (bank : Bank c) (key : BitVec w) : BitVec c :=
  xorRows bank key (List.range' 0 (rows - 1)) 0#c

/-- The twisted character `c'`: the key's last byte exclusive-ored with the low byte of the accumulator before the last
row (41_twisted.md R110 step 3). -/
def twistedCharacter {c w : Nat} (rows : Nat) (bank : Bank c) (key : BitVec w) : Byte :=
  character key (rows - 1) ^^^ lowByte (twistedPrefix rows bank key)

/-- The twisted accumulator with the last row, read at the twisted character (41_twisted.md R110 step 4). -/
def twistedAccumulator {c w : Nat} (rows : Nat) (bank : Bank c) (key : BitVec w) : BitVec c :=
  twistedPrefix rows bank key ^^^ bank.read (cellAddress (rows - 1) (twistedCharacter rows bank key))

/-- Twisted tabulation over `rows` rows: the upper half of the accumulator (41_twisted.md R110 step 5). -/
def twistedHash {c w : Nat} (rows : Nat) (bank : Bank c) (key : BitVec w) : BitVec w :=
  upperHalf w (twistedAccumulator rows bank key)

/-- The input of this step and the state that is left to run it on. With no record left the host presents no command,
which is an `Idle` step (70 R172, log entry 3). -/
def takeInput (s : State) : Input × State :=
  match s.inputs with
  | [] => (.idle, s)
  | p :: rest => (p.input, { s with inputs := rest })

/-- The state in which the host presents a command in the very next step, before whatever it presents otherwise. -/
def presentCommand (w : CommandWord) (s : State) : State :=
  { s with inputs := Pins.ofCommand w :: s.inputs }

end Sys2Proof.Machine
end

