-- ==== Sys2Proof/Machine/Simple.lean ====
section
/-! DEFINITION. The simple family: the function blocks `tabulation_hash_simple_32` and `tabulation_hash_simple_64`
(40_simple.md R97) and the meanings of SimpleTab32 and SimpleTab64. -/

namespace Sys2Proof.Machine

/-- The block `tabulation_hash_simple_32`, combinational: four rows of 32-bit cells (40_simple.md R90, R97). -/
def simpleTab32 (bank : Bank 32) (key : BitVec 32) : BitVec 32 := simpleHash 4 bank key

/-- The block `tabulation_hash_simple_64`, combinational: eight rows of 64-bit cells (40_simple.md R91, R97). -/
def simpleTab64 (bank : Bank 64) (key : BitVec 64) : BitVec 64 := simpleHash 8 bank key

/-- SimpleTab32 (40_simple.md R90): OUT_VALID is set and OUT_HASH is the zero-extended hash; no exception. -/
def execSimpleTab32 (key : BitVec 32) (s : State) : Outcome :=
  .next (s.respond (placeHash32 (simpleTab32 s.rom.st32 key)))

/-- SimpleTab64 (40_simple.md R91): OUT_VALID is set and OUT_HASH is the hash; no exception. -/
def execSimpleTab64 (key : BitVec 64) (s : State) : Outcome :=
  .next (s.respond (placeHash64 (simpleTab64 s.rom.st64 key)))

end Sys2Proof.Machine
end

