-- ==== Sys2Proof/Machine/Twisted.lean ====
section
/-! DEFINITION. The twisted family: the function blocks `tabulation_hash_twisted_32` and `tabulation_hash_twisted_64`
(41_twisted.md R119) and the meanings of TwistedTab32 and TwistedTab64. -/

namespace Sys2Proof.Machine

/-- The block `tabulation_hash_twisted_32`, combinational: four rows of 64-bit cells (41_twisted.md R110, R119). -/
def twistedTab32 (bank : Bank 64) (key : BitVec 32) : BitVec 32 := twistedHash 4 bank key

/-- The block `tabulation_hash_twisted_64`, combinational: eight rows of 128-bit cells (41_twisted.md R111, R119). -/
def twistedTab64 (bank : Bank 128) (key : BitVec 64) : BitVec 64 := twistedHash 8 bank key

/-- TwistedTab32 (41_twisted.md R110): OUT_VALID is set and OUT_HASH is the zero-extended hash; no exception. -/
def execTwistedTab32 (key : BitVec 32) (s : State) : Outcome :=
  .next (s.respond (placeHash32 (twistedTab32 s.rom.tt32 key)))

/-- TwistedTab64 (41_twisted.md R111): OUT_VALID is set and OUT_HASH is the hash; no exception. -/
def execTwistedTab64 (key : BitVec 64) (s : State) : Outcome :=
  .next (s.respond (placeHash64 (twistedTab64 s.rom.tt64 key)))

end Sys2Proof.Machine
end

