-- ==== Sys2Proof/Machine/Dispatch.lean ====
section
/-! DEFINITION. One arm per operation of the opcode table: the 4-way selection of 42_engine.md R130, R132. -/

namespace Sys2Proof.Machine

def exec (i : Instr) (s : State) : Host.Outcome State Fault Refusal :=
  match i with
  | .simpleTab32 key => Sys2Proof.Machine.execSimpleTab32 key s
  | .twistedTab32 key => Sys2Proof.Machine.execTwistedTab32 key s
  | .simpleTab64 key => Sys2Proof.Machine.execSimpleTab64 key s
  | .twistedTab64 key => Sys2Proof.Machine.execTwistedTab64 key s

end Sys2Proof.Machine
end

