-- ==== Sys2Proof/Machine/Step.lean ====
section
/-! DEFINITION. The transition function (42_engine.md R131): one step takes one input of the host. -/

namespace Sys2Proof.Machine

/-- One step, one rising edge of `clk` (42_engine.md R131, R139). -/
def step (s : State) : Host.Outcome State Fault Refusal :=
  match takeInput s with
  | (.reset, s') => .next s'.resetOutputs
  | (.idle, s') => .next s'.noResponse
  | (.cmd w, s') => exec (decode w) s'

/-- The state in which the very next step accepts the command word numbered `w`. The machine fetches nothing
(10_state.md R25): the host presents the command on the pins (log entry 6). -/
def State.withFetchWord (s : State) (nbits w : Nat) : State :=
  presentCommand (BitVec.ofNat 66 (tableWord nbits w)) s

end Sys2Proof.Machine
end

