-- ==== Sys2Proof/Machine/Tables.lean ====
section
/-! DEFINITION. Values of the parameter TABLE that the spec names (95_test_vectors.md section 2), for claims and tests
about one concrete table. The machine uses none of them. -/

namespace Sys2Proof.Tables

/-- `T0`: every cell 0. -/
def zero : Config.Table where
  st32 _ _ := 0#32
  tt32 _ _ := 0#64
  st64 _ _ := 0#64
  tt64 _ _ := 0#128

/-- `TROW1` in the simple banks, `(i+1) << (W-8)`; the twisted banks, where it is not used, are 0. -/
def rowSelector : Config.Table where
  st32 i _ := BitVec.ofNat 32 (i.val + 1) <<< 24
  tt32 _ _ := 0#64
  st64 i _ := BitVec.ofNat 64 (i.val + 1) <<< 56
  tt64 _ _ := 0#128

/-- `TID`: `c << (8*i)`, in the upper half of a twisted cell whose lower half is 0. -/
def identity : Config.Table where
  st32 i c := c.setWidth 32 <<< (8 * i.val)
  tt32 i c := (c.setWidth 64 <<< (8 * i.val)) <<< 32
  st64 i c := c.setWidth 64 <<< (8 * i.val)
  tt64 i c := (c.setWidth 128 <<< (8 * i.val)) <<< 64

/-- `TFOLD` in the twisted banks: `TID` with the column also in the low byte of every row but the last; the simple
banks, where it is not used, are 0. -/
def fold : Config.Table where
  st32 _ _ := 0#32
  tt32 i c := ((c.setWidth 64 <<< (8 * i.val)) <<< 32) ||| (if i.val < 3 then c.setWidth 64 else 0#64)
  st64 _ _ := 0#64
  tt64 i c := ((c.setWidth 128 <<< (8 * i.val)) <<< 64) ||| (if i.val < 7 then c.setWidth 128 else 0#128)

/-- `TLAST` in the twisted banks: 0 but for the last row, `0x1000 + c` over a lower half of ones; the simple banks,
where it is not used, are 0. -/
def lastRow : Config.Table where
  st32 _ _ := 0#32
  tt32 i c := if i.val < 3 then 0#64 else (BitVec.ofNat 64 (0x1000 + c.toNat) <<< 32) ||| 0xFFFFFFFF#64
  st64 _ _ := 0#64
  tt64 i c := if i.val < 7 then 0#128 else (BitVec.ofNat 128 (0x1000 + c.toNat) <<< 64) ||| 0xFFFFFFFFFFFFFFFF#128

/-- `TMUL`: `(256*i + c + 1) * K` modulo 2 to the cell width. -/
def multiples : Config.Table where
  st32 i c := BitVec.ofNat 32 ((256 * i.val + c.toNat + 1) * 0x9E3779B1)
  tt32 i c := BitVec.ofNat 64 ((256 * i.val + c.toNat + 1) * 0x9E3779B97F4A7C15)
  st64 i c := BitVec.ofNat 64 ((256 * i.val + c.toNat + 1) * 0x9E3779B97F4A7C15)
  tt64 i c := BitVec.ofNat 128 ((256 * i.val + c.toNat + 1) * 0x9E3779B97F4A7C15F39CC0605CEDC835)

end Sys2Proof.Tables
end

