-- ==== Sys2Proof/Machine/Engine.lean ====
section
/-! DEFINITION. `Hash(v, k)`, the engine's function from selector and key field to the 64-bit response
(42_engine.md R132), in whose terms claims about whole runs are stated. The step does not call it: it runs the decoded
instruction. -/

namespace Sys2Proof.Machine

/-- `Hash(v, k)` for the ROM contents `m` (42_engine.md R132). -/
def hash (m : Memory) (variant : Variant) (key : KeyField) : BitVec 64 :=
  if variant = 0b00#2 then (simpleTab32 m.st32 (key.setWidth 32)).setWidth 64
  else if variant = 0b01#2 then (twistedTab32 m.tt32 (key.setWidth 32)).setWidth 64
  else if variant = 0b10#2 then simpleTab64 m.st64 key
  else twistedTab64 m.tt64 key

/-- What the host observes after a step with the given input: the pair OUT_VALID, OUT_HASH (42_engine.md R136). -/
def response (m : Memory) : Input → Bool × BitVec 64
  | .reset => (false, 0#64)
  | .idle => (false, 0#64)
  | .cmd w => (true, hash m w.variant w.keyField)

/-- The bank an operation reads, and no other (30_encoding.md R71, 20_memory.md R40). -/
def ownBank : Instr → BankId
  | .simpleTab32 _ => .st32
  | .twistedTab32 _ => .tt32
  | .simpleTab64 _ => .st64
  | .twistedTab64 _ => .tt64

/-- The cells an operation reads, bank and word address, in the pseudocode's order (20_memory.md R50). -/
def accesses (m : Memory) : Instr → List (BankId × Nat)
  | .simpleTab32 key => (List.range' 0 4).map fun i => (.st32, cellAddress i (character key i))
  | .twistedTab32 key =>
    ((List.range' 0 3).map fun i => (.tt32, cellAddress i (character key i)))
      ++ [(.tt32, cellAddress 3 (twistedCharacter 4 m.tt32 key))]
  | .simpleTab64 key => (List.range' 0 8).map fun i => (.st64, cellAddress i (character key i))
  | .twistedTab64 key =>
    ((List.range' 0 7).map fun i => (.tt64, cellAddress i (character key i)))
      ++ [(.tt64, cellAddress 7 (twistedCharacter 8 m.tt64 key))]

end Sys2Proof.Machine
end

