-- ==== Sys2Proof/Safety.lean ====
section
/-! DEFINITION. What counts as a safe run, the invariant of the machine, and the terms in which claims about runs are
stated. -/

namespace Sys2Proof.Machine

/-- A state is safe when its step answers a next state: no fault, no refusal (42_engine.md R131, 60 R150). -/
def Safe (s : State) : Prop := ∃ t, step s = .next t

/-- No hash outlives its response: when OUT_VALID is 0, OUT_HASH is 0 (10_state.md R22, D11). -/
def State.settled (s : State) : Bool := s.outValid || decide (s.outHash = 0#64)

/-- The invariant of the machine: the ROM is in canonical form, so it stands for exactly one TABLE of the fixed shapes
(20_memory.md R40, R46; the form itself is the model's choice, log entry 2), and the response registers are settled. -/
def State.inv (s : State) : Bool := s.rom.wf && s.settled

/-- `k` steps of the machine, stopping at the first fault or refusal. -/
def run (k : Nat) (s : State) : Outcome := Sys2Proof.core.run k s

/-- The response of one step, if it has one: OUT_HASH where OUT_VALID is 1 (42_engine.md R133). -/
def State.responseOf (s : State) : List (BitVec 64) := if s.rspValid then [s.rspHash] else []

/-- The responses the host samples during the next `k` steps, oldest first (42_engine.md R133). -/
def responses : Nat → State → List (BitVec 64)
  | 0, _ => []
  | k + 1, s =>
    match step s with
    | .next t => t.responseOf ++ responses k t
    | .fault _ => []
    | .refused _ => []

/-- The command words the host presents with `rst` = 0, in order: those the engine accepts (42_engine.md R134). -/
def acceptedCommands : List Pins → List CommandWord
  | [] => []
  | p :: rest =>
    match p.input with
    | .cmd w => w :: acceptedCommands rest
    | .reset => acceptedCommands rest
    | .idle => acceptedCommands rest

end Sys2Proof.Machine
end

