-- ==== Sys2Proof/Certificates/Slice0/Obligations.lean ====
section
/-! DEFINITION. The statements for the provers, each from a numbered rule of spec/ or derived from its sections. -/

open Sys2Proof Sys2Proof.Machine

/-! ## The four operations -/

/-- 40_simple.md R90: SimpleTab32 over every key, every ROM and every state: its decoding, its result, written out row
by row, with the whole next state, and the rule's worked example. -/
def Obligations.SimpleTab32Result : Prop :=
  (∀ k : KeyField, decode (packCommand 0b00#2 k) = .simpleTab32 (k.extractLsb' 0 32)) ∧
  (∀ (key : BitVec 32) (s : State), exec (.simpleTab32 key) s = .next { s with
    outValid := true
    outHash := (memRead s.rom .st32 (key.extractLsb' 0 8).toNat ^^^
      memRead s.rom .st32 (0x100 + (key.extractLsb' 8 8).toNat) ^^^
      memRead s.rom .st32 (0x200 + (key.extractLsb' 16 8).toNat) ^^^
      memRead s.rom .st32 (0x300 + (key.extractLsb' 24 8).toNat)).setWidth 64 }) ∧
  (∀ s : State, exec (.simpleTab32 0x01020304#32) { s with rom := Memory.ofTable Tables.multiples } =
    .next { s with rom := Memory.ofTable Tables.multiples, outValid := true, outHash := 0x0C073EC0#64 })

/-- 40_simple.md R91: SimpleTab64, as R90 with eight rows of 64-bit cells. -/
def Obligations.SimpleTab64Result : Prop :=
  (∀ k : KeyField, decode (packCommand 0b10#2 k) = .simpleTab64 k) ∧
  (∀ (key : BitVec 64) (s : State), exec (.simpleTab64 key) s = .next { s with
    outValid := true
    outHash := memRead s.rom .st64 (key.extractLsb' 0 8).toNat ^^^
      memRead s.rom .st64 (0x100 + (key.extractLsb' 8 8).toNat) ^^^
      memRead s.rom .st64 (0x200 + (key.extractLsb' 16 8).toNat) ^^^
      memRead s.rom .st64 (0x300 + (key.extractLsb' 24 8).toNat) ^^^
      memRead s.rom .st64 (0x400 + (key.extractLsb' 32 8).toNat) ^^^
      memRead s.rom .st64 (0x500 + (key.extractLsb' 40 8).toNat) ^^^
      memRead s.rom .st64 (0x600 + (key.extractLsb' 48 8).toNat) ^^^
      memRead s.rom .st64 (0x700 + (key.extractLsb' 56 8).toNat) }) ∧
  (∀ s : State, exec (.simpleTab64 0x0102030405060708#64) { s with rom := Memory.ofTable Tables.multiples } =
    .next { s with rom := Memory.ofTable Tables.multiples, outValid := true, outHash := 0xA28A02311AAFE0D0#64 })

/-- 41_twisted.md R110: TwistedTab32. The accumulator of rows 0 to 2 gives the twisted character, row 3 is read there,
and the upper 32 bits of the 64-bit accumulator are the hash. -/
def Obligations.TwistedTab32Result : Prop :=
  (∀ k : KeyField, decode (packCommand 0b01#2 k) = .twistedTab32 (k.extractLsb' 0 32)) ∧
  (∀ (key : BitVec 32) (s : State),
    let h : BitVec 64 := memRead s.rom .tt32 (key.extractLsb' 0 8).toNat ^^^
      memRead s.rom .tt32 (0x100 + (key.extractLsb' 8 8).toNat) ^^^
      memRead s.rom .tt32 (0x200 + (key.extractLsb' 16 8).toNat)
    let c' : Byte := key.extractLsb' 24 8 ^^^ h.extractLsb' 0 8
    exec (.twistedTab32 key) s = .next { s with
      outValid := true
      outHash := ((h ^^^ memRead s.rom .tt32 (0x300 + c'.toNat)).extractLsb' 32 32).setWidth 64 }) ∧
  (∀ s : State, exec (.twistedTab32 0x01020304#32) { s with rom := Memory.ofTable Tables.multiples } =
    .next { s with rom := Memory.ofTable Tables.multiples, outValid := true, outHash := 0xF19033B2#64 })

/-- 41_twisted.md R111: TwistedTab64, as R110 with eight rows of 128-bit cells, row 7 twisted. -/
def Obligations.TwistedTab64Result : Prop :=
  (∀ k : KeyField, decode (packCommand 0b11#2 k) = .twistedTab64 k) ∧
  (∀ (key : BitVec 64) (s : State),
    let h : BitVec 128 := memRead s.rom .tt64 (key.extractLsb' 0 8).toNat ^^^
      memRead s.rom .tt64 (0x100 + (key.extractLsb' 8 8).toNat) ^^^
      memRead s.rom .tt64 (0x200 + (key.extractLsb' 16 8).toNat) ^^^
      memRead s.rom .tt64 (0x300 + (key.extractLsb' 24 8).toNat) ^^^
      memRead s.rom .tt64 (0x400 + (key.extractLsb' 32 8).toNat) ^^^
      memRead s.rom .tt64 (0x500 + (key.extractLsb' 40 8).toNat) ^^^
      memRead s.rom .tt64 (0x600 + (key.extractLsb' 48 8).toNat)
    let c' : Byte := key.extractLsb' 56 8 ^^^ h.extractLsb' 0 8
    exec (.twistedTab64 key) s = .next { s with
      outValid := true
      outHash := (h ^^^ memRead s.rom .tt64 (0x700 + c'.toNat)).extractLsb' 64 64 }) ∧
  (∀ s : State, exec (.twistedTab64 0x0102030405060708#64) { s with rom := Memory.ofTable Tables.multiples } =
    .next { s with rom := Memory.ofTable Tables.multiples, outValid := true, outHash := 0x457A0F8BAC2EC921#64 })

/-- 60_exceptions.md R150: every operation, with any key and any table, completes with its result, Hash of its own
selector and key over the present ROM (42_engine.md R132), and changes nothing but the two output registers. -/
def Obligations.ExecNeverStops : Prop :=
  ∀ (i : Instr) (s : State),
    exec i s = .next { s with outValid := true, outHash := hash s.rom i.variant i.keyField }

/-- The frame of every operation: the ROM, read cell by cell in every bank, and the host's further inputs are
unchanged; OUT_VALID is 1; a 32-bit operation leaves OUT_HASH[63:32] 0 (20_memory.md R50, 42_engine.md R132). -/
def Obligations.ExecFrame : Prop :=
  ∀ (i : Instr) (s t : State), exec i s = .next t →
    (∀ (b : BankId) (a : Nat), memRead t.rom b a = memRead s.rom b a) ∧ t.rom = s.rom ∧ t.inputs = s.inputs ∧
    t.outValid = true ∧ (i.variant.getLsbD 1 = false → t.outHash.extractLsb' 32 32 = 0#32)

/-- 42_engine.md R132: the dispatch by the selector, the placement of the result, and that only the selected
operation's bank matters. -/
def Obligations.HashDispatch : Prop :=
  ∀ (m : Memory) (k : KeyField),
    hash m 0b00#2 k = (simpleTab32 m.st32 (k.extractLsb' 0 32)).setWidth 64 ∧
    hash m 0b01#2 k = (twistedTab32 m.tt32 (k.extractLsb' 0 32)).setWidth 64 ∧
    hash m 0b10#2 k = simpleTab64 m.st64 k ∧
    hash m 0b11#2 k = twistedTab64 m.tt64 k ∧
    (∀ m' : Memory, hash { m' with st32 := m.st32 } 0b00#2 k = hash m 0b00#2 k ∧
      hash { m' with tt32 := m.tt32 } 0b01#2 k = hash m 0b01#2 k ∧
      hash { m' with st64 := m.st64 } 0b10#2 k = hash m 0b10#2 k ∧
      hash { m' with tt64 := m.tt64 } 0b11#2 k = hash m 0b11#2 k) ∧
    (hash m 0b00#2 k).extractLsb' 32 32 = 0#32 ∧ (hash m 0b01#2 k).extractLsb' 32 32 = 0#32

/-! ## The step -/

/-- 42_engine.md R131: the transition function, over every state and every input, total and independent of the present
output registers. -/
def Obligations.StepTransition : Prop :=
  (∀ (s : State) (p : Pins) (rest : List Pins), step { s with inputs := p :: rest } = .next (match p.input with
    | .reset => { s with inputs := rest, outValid := false, outHash := 0#64 }
    | .idle => { s with inputs := rest, outValid := false, outHash := 0#64 }
    | .cmd w => { s with inputs := rest, outValid := true, outHash := hash s.rom w.variant w.keyField })) ∧
  (∀ s : State, ∃ t, step s = .next t) ∧
  (∀ (s : State) (v : Bool) (value : BitVec 64), step { s with outValid := v, outHash := value } = step s)

/-- A step whose pins present a command runs the decoded instruction, on the state with that input taken
(30_encoding.md R75, 42_engine.md R131). -/
def Obligations.StepRunsDecodedCommand : Prop :=
  ∀ (s : State) (v : Variant) (k : KeyField) (rest : List Pins),
    step { s with inputs := ⟨false, true, v, k⟩ :: rest } =
      exec (decode (packCommand v k)) { s with inputs := rest }

/-- The step after `withFetchWord` runs the instruction that `decodeTableWord` reads, and gives back the other inputs
(the model's interface: log entry 6). -/
def Obligations.FetchWordRunsTableInstruction : Prop :=
  ∀ (s : State) (nbits n : Nat) (i : Instr), decodeTableWord nbits n = some i →
    step (s.withFetchWord nbits n) = exec i s

/-- With no input record left the step is an Idle step (the model's choice: log entry 3; 70 R172 calls every step
without a command an Idle step). -/
def Obligations.NoInputIsIdle : Prop :=
  ∀ s : State, step { s with inputs := [] } = .next { s with inputs := [], outValid := false, outHash := 0#64 }

/-- 30_encoding.md R75: the three inputs the pins can present. -/
def Obligations.PinsPresentOneInput : Prop :=
  ∀ (valid : Bool) (v : Variant) (k : KeyField),
    Pins.input ⟨true, valid, v, k⟩ = .reset ∧ Pins.input ⟨false, false, v, k⟩ = .idle ∧
    Pins.input ⟨false, true, v, k⟩ = .cmd (packCommand v k) ∧
    (packCommand v k).variant = v ∧ (packCommand v k).keyField = k

/-- 60_exceptions.md R154: a command presented together with `rst` leaves no trace. -/
def Obligations.ResetBeatsCommand : Prop :=
  ∀ (s : State) (v : Variant) (k : KeyField) (rest : List Pins),
    step { s with inputs := ⟨true, true, v, k⟩ :: rest } =
      .next { s with inputs := rest, outValid := false, outHash := 0#64 } ∧
    step { s with inputs := ⟨true, true, v, k⟩ :: rest } =
      step { s with inputs := ⟨true, false, 0b00#2, 0#64⟩ :: rest }

/-- 70_reset_and_hazards.md R170: `rst` held for any number of steps, at any time, whatever the request pins hold. -/
def Obligations.ResetHeld : Prop :=
  ∀ (s : State) (first : Bool × Variant × KeyField) (held : List (Bool × Variant × KeyField)) (rest : List Pins),
    run (held.length + 1)
      { s with inputs := (first :: held).map (fun q => (⟨true, q.1, q.2.1, q.2.2⟩ : Pins)) ++ rest } =
      .next { s with inputs := rest, outValid := false, outHash := 0#64 }

/-- 10_state.md R32: what a Reset step leaves, what State.reset holds, and the ROM at reset and at power-on. The two
registers at power-on are opaque, so nothing is said of them. -/
def Obligations.ResetValues : Prop :=
  (∀ (s : State) (valid : Bool) (v : Variant) (k : KeyField) (rest : List Pins), ∃ t,
    step { s with inputs := ⟨true, valid, v, k⟩ :: rest } = .next t ∧
      t.outValid = false ∧ t.outHash = 0#64 ∧ t.rom = s.rom) ∧
  State.reset.outValid = false ∧ State.reset.outHash = 0#64 ∧ State.powerOn.rom = State.reset.rom ∧
  (∀ (i : Fin 4) (c : Byte), memRead State.reset.rom .st32 (i.val * 256 + c.toNat) = Config.table.st32 i c) ∧
  (∀ (i : Fin 4) (c : Byte), memRead State.reset.rom .tt32 (i.val * 256 + c.toNat) = Config.table.tt32 i c) ∧
  (∀ (i : Fin 8) (c : Byte), memRead State.reset.rom .st64 (i.val * 256 + c.toNat) = Config.table.st64 i c) ∧
  (∀ (i : Fin 8) (c : Byte), memRead State.reset.rom .tt64 (i.val * 256 + c.toNat) = Config.table.tt64 i c)

/-! ## Runs -/

/-- 10_state.md R33: after any step the registers are a function of that step's input and the ROM alone, and no run of
at least one step can tell what the registers held before it. -/
def Obligations.NoRegisterHistory : Prop :=
  (∃ f : Memory → Input → Bool × BitVec 64, ∀ (s : State) (p : Pins) (rest : List Pins),
    ∃ t, step { s with inputs := p :: rest } = .next t ∧ t.rom = s.rom ∧ (t.outValid, t.outHash) = f s.rom p.input) ∧
  (∀ (k : Nat) (s : State) (v : Bool) (value : BitVec 64),
    run (k + 1) { s with outValid := v, outHash := value } = run (k + 1) s)

/-- 20_memory.md R43: no run, whatever the host presents (Reset included), changes a cell of any bank. -/
def Obligations.RomNeverWritten : Prop :=
  ∀ (k : Nat) (s t : State), run k s = .next t →
    t.rom = s.rom ∧ ∀ (b : BankId) (a : Nat), memRead t.rom b a = memRead s.rom b a

/-- Every run of every length completes: the step never faults and never refuses (42_engine.md section 2), and a run takes
one input record a step while there is one (the list of inputs and its end are the model's choice: log entry 3). -/
def Obligations.EveryRunCompletes : Prop :=
  ∀ (k : Nat) (s : State), ∃ t, run k s = .next t ∧ t.inputs = s.inputs.drop k

/-- 42_engine.md R134: a command presented with `rst` = 0 is accepted in its step, and nothing the host presents in the
following step, Reset included, takes its response away before that step's end. -/
def Obligations.CommandNeverWithdrawn : Prop :=
  ∀ (s : State) (v : Variant) (k : KeyField) (p : Pins) (rest : List Pins), ∃ t u,
    step { s with inputs := ⟨false, true, v, k⟩ :: p :: rest } = .next t ∧
    t.rspValid = true ∧ t.rspHash = hash s.rom v k ∧ t.inputs = p :: rest ∧
    step t = .next u ∧ u.inputs = rest ∧
    (p.rst = true → u.rspValid = false ∧ u.rspHash = 0#64)

/-- 42_engine.md R135: two commands with the same selector and the same used key bits give the same response, whatever
came before, comes after, or stands in the registers, at any distance. -/
def Obligations.CommandsIndependent : Prop :=
  ∀ (s s' : State) (before before' rest rest' : List Pins) (v : Variant) (k k' : KeyField),
    s.rom = s'.rom → k.extractLsb' 0 32 = k'.extractLsb' 0 32 → (v.getLsbD 1 = true → k = k') →
    ∃ t t', run (before.length + 1) { s with inputs := before ++ ⟨false, true, v, k⟩ :: rest } = .next t ∧
      run (before'.length + 1) { s' with inputs := before' ++ ⟨false, true, v, k'⟩ :: rest' } = .next t' ∧
      t.outValid = true ∧ t'.outValid = true ∧ t.outHash = t'.outHash

/-- 42_engine.md R136: over any sequence of inputs from any state, the host observes after each step (1, Hash(w)) if
the step's input was Cmd(w) and (0, 0) otherwise. -/
def Obligations.TransactionView : Prop :=
  ∀ (s : State) (before : List Pins) (p : Pins) (rest : List Pins),
    run (before.length + 1) { s with inputs := before ++ p :: rest } = .next (match p.input with
      | .cmd w => { s with inputs := rest, outValid := true, outHash := hash s.rom w.variant w.keyField }
      | .reset => { s with inputs := rest, outValid := false, outHash := 0#64 }
      | .idle => { s with inputs := rest, outValid := false, outHash := 0#64 })

/-- 42_engine.md R133: the responses the host samples are those of the accepted commands, in their order, one each; a
response stands for one step and is then replaced by the outcome of the next input. -/
def Obligations.ResponsesInOrder : Prop :=
  (∀ (s : State) (ps rest : List Pins), responses ps.length { s with inputs := ps ++ rest } =
    (acceptedCommands ps).map (fun w => hash s.rom w.variant w.keyField)) ∧
  (∀ (s : State) (v : Variant) (k : KeyField) (p : Pins) (rest : List Pins), ∃ t u,
    step { s with inputs := ⟨false, true, v, k⟩ :: p :: rest } = .next t ∧
      (t.outValid, t.outHash) = (true, hash s.rom v k) ∧
      step t = .next u ∧ (u.outValid, u.outHash) = response s.rom p.input)

/-- Every step keeps the machine's invariant, from every state that has it: no hash outlives its response (10_state.md
R22), and the ROM stays in canonical form. The canonical form is the model's choice (log entry 2): the spec gives the
bank sizes (20_memory.md R40) and that no cell is ever written (R43), and no way of listing the cells. -/
def Obligations.StepKeepsCanonicalRomAndSettledOutputs : Prop :=
  ∀ s t : State, s.inv = true → step s = .next t → t.inv = true

/-- The state after reset meets the machine's invariant: its outputs are settled (10_state.md R32), and its ROM is in
canonical form, which is the model's choice (log entry 2) and no rule of the spec. -/
def Obligations.ResetIsCanonicalAndSettled : Prop :=
  State.reset.inv = true

/-! ## Encoding -/

/-- 30_encoding.md R70: where the fields of the one command format stand. -/
def Obligations.CommandWordLayout : Prop :=
  ∀ (v : Variant) (k : KeyField),
    (packCommand v k).toNat = v.toNat * 2 ^ 64 + k.toNat ∧
    (packCommand v k).getLsbD 65 = v.getLsbD 1 ∧ (packCommand v k).getLsbD 64 = v.getLsbD 0 ∧
    (packCommand v k).variant = v ∧ (packCommand v k).keyField = k

/-- 30_encoding.md R71: a word decodes to the operation of the one row whose match it meets under the mask, and that
operation is its block over its bank. -/
def Obligations.OpcodeMap : Prop :=
  (∀ w : CommandWord,
    (w &&& 0x30000000000000000#66 = 0x00000000000000000#66 ↔ ∃ key, decode w = .simpleTab32 key) ∧
    (w &&& 0x30000000000000000#66 = 0x10000000000000000#66 ↔ ∃ key, decode w = .twistedTab32 key) ∧
    (w &&& 0x30000000000000000#66 = 0x20000000000000000#66 ↔ ∃ key, decode w = .simpleTab64 key) ∧
    (w &&& 0x30000000000000000#66 = 0x30000000000000000#66 ↔ ∃ key, decode w = .twistedTab64 key)) ∧
  (∀ (s : State) (x : BitVec 32) (y : BitVec 64),
    exec (.simpleTab32 x) s =
      .next { s with outValid := true, outHash := (simpleTab32 s.rom.st32 x).setWidth 64 } ∧
    exec (.twistedTab32 x) s =
      .next { s with outValid := true, outHash := (twistedTab32 s.rom.tt32 x).setWidth 64 } ∧
    exec (.simpleTab64 y) s = .next { s with outValid := true, outHash := simpleTab64 s.rom.st64 y } ∧
    exec (.twistedTab64 y) s = .next { s with outValid := true, outHash := twistedTab64 s.rom.tt64 y })

/-- 30_encoding.md R72: the key operand, and that CMD[63:32] of a 32-bit command changes nothing at all. -/
def Obligations.KeyOperand : Prop :=
  (∀ k : KeyField, decode (packCommand 0b10#2 k) = .simpleTab64 k ∧ decode (packCommand 0b11#2 k) = .twistedTab64 k ∧
    decode (packCommand 0b00#2 k) = .simpleTab32 (k.extractLsb' 0 32) ∧
    decode (packCommand 0b01#2 k) = .twistedTab32 (k.extractLsb' 0 32)) ∧
  (∀ (s : State) (v : Variant) (k k' : KeyField) (rest : List Pins), v.getLsbD 1 = false →
    k.extractLsb' 0 32 = k'.extractLsb' 0 32 →
    step { s with inputs := ⟨false, true, v, k⟩ :: rest } = step { s with inputs := ⟨false, true, v, k'⟩ :: rest })

/-- 30_encoding.md R73: where each character of the key stands in the command word. -/
def Obligations.CharactersInCommand : Prop :=
  ∀ (v : Variant) (k : KeyField) (i : Nat),
    (i < 8 → character k i = (packCommand v k).extractLsb' (8 * i) 8) ∧
    (i < 4 → character (k.extractLsb' 0 32) i = (packCommand v k).extractLsb' (8 * i) 8)

/-- 30_encoding.md R74: every 66-bit word is legal and runs; two words are the same operation exactly when they differ
in nothing but CMD[63:32] of a 32-bit one. -/
def Obligations.EveryWordLegal : Prop :=
  (∀ (w : CommandWord) (s : State), ∃ i t, decodeRaw w.toNat = .ok i ∧ decode w = i ∧ exec i s = .next t) ∧
  (∀ w w' : CommandWord, decode w = decode w' ↔ w.variant = w'.variant ∧
    (if w.getLsbD 65 then w.keyField = w'.keyField else w.extractLsb' 0 32 = w'.extractLsb' 0 32))

/-- Decoding the encoding of any instruction gives it back, every key at every value (30_encoding.md sections 1, 2, 5). -/
def Obligations.DecodeEncode : Prop :=
  (∀ i : Instr, i.wellFormed = true) ∧ ∀ i : Instr, decode (encode i) = i

/-- Encoding the decoding of any word gives the word back, with CMD[63:32] of a 32-bit command cleared (30_encoding.md
sections 2, 5). -/
def Obligations.EncodeDecode : Prop :=
  ∀ w : CommandWord, encode (decode w) = if w.getLsbD 65 then w else w &&& 0x300000000FFFFFFFF#66

/-- The four command words of 30_encoding.md section 5, and one with ignored bits set, decode as the spec writes them. -/
def Obligations.DecodesWrittenWords : Prop :=
  decode 0x00000000001020304#66 = .simpleTab32 0x01020304#32 ∧
  decode 0x10000000001020304#66 = .twistedTab32 0x01020304#32 ∧
  decode 0x20102030405060708#66 = .simpleTab64 0x0102030405060708#64 ∧
  decode 0x30102030405060708#66 = .twistedTab64 0x0102030405060708#64 ∧
  decode 0x1DEADBEEF01020304#66 = .twistedTab32 0x01020304#32

/-! ## The key and the ROM -/

/-- 20_memory.md R47: the characters of a key, least significant byte first. -/
def Obligations.KeyByteOrder : Prop :=
  (∀ (key : BitVec 32) (i : Nat), (character key i).setWidth 32 = (key >>> (8 * i)) &&& 0xFF#32) ∧
  (∀ (key : BitVec 64) (i : Nat), (character key i).setWidth 64 = (key >>> (8 * i)) &&& 0xFF#64) ∧
  (∀ key : BitVec 32, key = character key 3 ++ character key 2 ++ character key 1 ++ character key 0) ∧
  (∀ key : BitVec 64, key = character key 7 ++ character key 6 ++ character key 5 ++ character key 4 ++
    character key 3 ++ character key 2 ++ character key 1 ++ character key 0)

/-- 20_memory.md R41: a word address is the row over the column, and every address of the bank's width is the address
of exactly one row and column. -/
def Obligations.CellAddressing : Prop :=
  (∀ (i : Nat) (c : Byte), cellAddress i c = i * 256 + c.toNat) ∧
  (∀ (i : BitVec 2) (c : Byte), cellAddress i.toNat c = (i ++ c).toNat) ∧
  (∀ (i : BitVec 3) (c : Byte), cellAddress i.toNat c = (i ++ c).toNat) ∧
  (∀ a : BitVec 10, ∃! q : BitVec 2 × Byte, cellAddress q.1.toNat q.2 = a.toNat) ∧
  (∀ a : BitVec 11, ∃! q : BitVec 3 × Byte, cellAddress q.1.toNat q.2 = a.toNat)

/-- 20_memory.md R42: reading a bank filled with TABLE gives TABLE's cell, for every bank, row and column. -/
def Obligations.ReadGivesTable : Prop :=
  ∀ t : Config.Table,
    (∀ (i : Fin 4) (c : Byte), memRead (Memory.ofTable t) .st32 (i.val * 256 + c.toNat) = t.st32 i c) ∧
    (∀ (i : Fin 4) (c : Byte), memRead (Memory.ofTable t) .tt32 (i.val * 256 + c.toNat) = t.tt32 i c) ∧
    (∀ (i : Fin 8) (c : Byte), memRead (Memory.ofTable t) .st64 (i.val * 256 + c.toNat) = t.st64 i c) ∧
    (∀ (i : Fin 8) (c : Byte), memRead (Memory.ofTable t) .tt64 (i.val * 256 + c.toNat) = t.tt64 i c)

/-- The canonical ROMs are exactly the TABLEs, each once: a statement over every canonical ROM is a statement over every
value of the parameter (00_scope.md section 4, 20_memory.md section 1). The canonical form is the model's choice (log
entry 2). -/
def Obligations.CanonicalRomsAreTables : Prop :=
  (∀ m : Memory, m.wf = true ↔ ∃ t : Config.Table, m = Memory.ofTable t) ∧
  (∀ t t' : Config.Table, Memory.ofTable t = Memory.ofTable t' ↔ t = t')

/-- The footprint of an operation (20_memory.md section 3): `accesses` lists one cell in each row of its own bank, inside
the bank; the result is the exclusive or of those cells, each read once and whole (its upper half for a twisted
operation); and a ROM that agrees on those cells alone has the same footprint and gives the same hash. `accesses` is the
model's list beside the step (log entry 12); the second part ties the result of `exec` to it. -/
def Obligations.ResultIsOneCellPerRow : Prop :=
  (∀ (m : Memory) (i : Instr),
    (accesses m i).map (fun q => q.2 / 256) = List.range' 0 (ownBank i).rows ∧
    (∀ q ∈ accesses m i, q.1 = ownBank i ∧ q.2 < (ownBank i).cells) ∧
    (∀ m' : Memory, (∀ q ∈ accesses m i, memRead m' q.1 q.2 = memRead m q.1 q.2) →
      accesses m' i = accesses m i ∧
      ∀ s : State, ∃ value, exec i { s with rom := m } = .next { s with rom := m, outValid := true, outHash := value } ∧
        exec i { s with rom := m' } = .next { s with rom := m', outValid := true, outHash := value })) ∧
  (∀ (s : State) (x : BitVec 32) (y : BitVec 64),
    exec (.simpleTab32 x) s = .next { s with
      outValid := true
      outHash := (((accesses s.rom (.simpleTab32 x)).map fun q => memRead s.rom .st32 q.2).foldl
        (· ^^^ ·) 0#32).setWidth 64 } ∧
    exec (.twistedTab32 x) s = .next { s with
      outValid := true
      outHash := ((((accesses s.rom (.twistedTab32 x)).map fun q => memRead s.rom .tt32 q.2).foldl
        (· ^^^ ·) 0#64).extractLsb' 32 32).setWidth 64 } ∧
    exec (.simpleTab64 y) s = .next { s with
      outValid := true
      outHash := ((accesses s.rom (.simpleTab64 y)).map fun q => memRead s.rom .st64 q.2).foldl
        (· ^^^ ·) 0#64 } ∧
    exec (.twistedTab64 y) s = .next { s with
      outValid := true
      outHash := (((accesses s.rom (.twistedTab64 y)).map fun q => memRead s.rom .tt64 q.2).foldl
        (· ^^^ ·) 0#128).extractLsb' 64 64 })

/-- The order in which the rows are read cannot be seen: any order of the same rows accumulates the same value
(20_memory.md section 3). -/
def Obligations.ReadOrderUnobservable : Prop :=
  ∀ (m : Memory) (x : BitVec 32) (y : BitVec 64) (rows rows' : List Nat), rows.Perm rows' →
    xorRows m.st32 x rows 0#32 = xorRows m.st32 x rows' 0#32 ∧
    xorRows m.tt32 x rows 0#64 = xorRows m.tt32 x rows' 0#64 ∧
    xorRows m.st64 y rows 0#64 = xorRows m.st64 y rows' 0#64 ∧
    xorRows m.tt64 y rows 0#128 = xorRows m.tt64 y rows' 0#128

/-! ## Laws of the two families -/

/-- 40_simple.md R92 and 41_twisted.md R112: the response depends on the key and the cells of the operation's own bank,
and on nothing else of the state. -/
def Obligations.OperationsArePure : Prop :=
  (∀ (key : BitVec 32) (s s' : State), (∀ a, a < 0x400 → memRead s.rom .st32 a = memRead s'.rom .st32 a) →
    ∃ value, exec (.simpleTab32 key) s = .next { s with outValid := true, outHash := value } ∧
      exec (.simpleTab32 key) s' = .next { s' with outValid := true, outHash := value }) ∧
  (∀ (key : BitVec 64) (s s' : State), (∀ a, a < 0x800 → memRead s.rom .st64 a = memRead s'.rom .st64 a) →
    ∃ value, exec (.simpleTab64 key) s = .next { s with outValid := true, outHash := value } ∧
      exec (.simpleTab64 key) s' = .next { s' with outValid := true, outHash := value }) ∧
  (∀ (key : BitVec 32) (s s' : State), (∀ a, a < 0x400 → memRead s.rom .tt32 a = memRead s'.rom .tt32 a) →
    ∃ value, exec (.twistedTab32 key) s = .next { s with outValid := true, outHash := value } ∧
      exec (.twistedTab32 key) s' = .next { s' with outValid := true, outHash := value }) ∧
  (∀ (key : BitVec 64) (s s' : State), (∀ a, a < 0x800 → memRead s.rom .tt64 a = memRead s'.rom .tt64 a) →
    ∃ value, exec (.twistedTab64 key) s = .next { s with outValid := true, outHash := value } ∧
      exec (.twistedTab64 key) s' = .next { s' with outValid := true, outHash := value })

/-- 40_simple.md R94: if every cell of its bank is 0, an operation returns 0 for every key. -/
def Obligations.ZeroTable : Prop :=
  (∀ s : State, (∀ a, a < 0x400 → memRead s.rom .st32 a = 0#32) → ∀ key,
    exec (.simpleTab32 key) s = .next { s with outValid := true, outHash := 0#64 }) ∧
  (∀ s : State, (∀ a, a < 0x400 → memRead s.rom .tt32 a = 0#64) → ∀ key,
    exec (.twistedTab32 key) s = .next { s with outValid := true, outHash := 0#64 }) ∧
  (∀ s : State, (∀ a, a < 0x800 → memRead s.rom .st64 a = 0#64) → ∀ key,
    exec (.simpleTab64 key) s = .next { s with outValid := true, outHash := 0#64 }) ∧
  (∀ s : State, (∀ a, a < 0x800 → memRead s.rom .tt64 a = 0#128) → ∀ key,
    exec (.twistedTab64 key) s = .next { s with outValid := true, outHash := 0#64 })

/-- 40_simple.md R95: cells that depend on the row alone give the exclusive or of the row constants for every key; with
the source's own constants that is 0. -/
def Obligations.RowSelector : Prop :=
  (∀ (s : State) (r : Fin 4 → BitVec 32),
    (∀ (i : Fin 4) (c : Byte), memRead s.rom .st32 (i.val * 256 + c.toNat) = r i) → ∀ key,
    exec (.simpleTab32 key) s =
      .next { s with outValid := true, outHash := (r 0 ^^^ r 1 ^^^ r 2 ^^^ r 3).setWidth 64 }) ∧
  (∀ (s : State) (r : Fin 8 → BitVec 64),
    (∀ (i : Fin 8) (c : Byte), memRead s.rom .st64 (i.val * 256 + c.toNat) = r i) → ∀ key,
    exec (.simpleTab64 key) s = .next { s with
      outValid := true
      outHash := r 0 ^^^ r 1 ^^^ r 2 ^^^ r 3 ^^^ r 4 ^^^ r 5 ^^^ r 6 ^^^ r 7 }) ∧
  (∀ s : State,
    (∀ (i : Fin 4) (c : Byte), memRead s.rom .st32 (i.val * 256 + c.toNat) = BitVec.ofNat 32 i.val <<< 24) → ∀ key,
    exec (.simpleTab32 key) s = .next { s with outValid := true, outHash := 0#64 }) ∧
  (∀ s : State,
    (∀ (i : Fin 8) (c : Byte), memRead s.rom .st64 (i.val * 256 + c.toNat) = BitVec.ofNat 64 i.val <<< 56) → ∀ key,
    exec (.simpleTab64 key) s = .next { s with outValid := true, outHash := 0#64 })

/-- 40_simple.md R96: two keys that differ in one byte position at most give hashes that differ by the two cells of that
row, and are equal exactly when those cells are. -/
def Obligations.SimpleSensitivity : Prop :=
  (∀ (m : Memory) (x y : BitVec 32) (j : Fin 4),
    (∀ i : Fin 4, i ≠ j → character x i.val = character y i.val) →
    simpleTab32 m.st32 x ^^^ simpleTab32 m.st32 y =
      memRead m .st32 (j.val * 256 + (character x j.val).toNat) ^^^
        memRead m .st32 (j.val * 256 + (character y j.val).toNat) ∧
    (simpleTab32 m.st32 x = simpleTab32 m.st32 y ↔
      memRead m .st32 (j.val * 256 + (character x j.val).toNat) =
        memRead m .st32 (j.val * 256 + (character y j.val).toNat))) ∧
  (∀ (m : Memory) (x y : BitVec 64) (j : Fin 8),
    (∀ i : Fin 8, i ≠ j → character x i.val = character y i.val) →
    simpleTab64 m.st64 x ^^^ simpleTab64 m.st64 y =
      memRead m .st64 (j.val * 256 + (character x j.val).toNat) ^^^
        memRead m .st64 (j.val * 256 + (character y j.val).toNat) ∧
    (simpleTab64 m.st64 x = simpleTab64 m.st64 y ↔
      memRead m .st64 (j.val * 256 + (character x j.val).toNat) =
        memRead m .st64 (j.val * 256 + (character y j.val).toNat)))

/-- 41_twisted.md R114: the operation carried as a high and a low word. -/
def Obligations.HighLowPair : Prop :=
  (∀ (m : Memory) (key : BitVec 32),
    let cell (i : Nat) : BitVec 64 := memRead m .tt32 (i * 256 + (character key i).toNat)
    let lo : BitVec 32 := (cell 0).extractLsb' 0 32 ^^^ (cell 1).extractLsb' 0 32 ^^^ (cell 2).extractLsb' 0 32
    let hi : BitVec 32 := (cell 0).extractLsb' 32 32 ^^^ (cell 1).extractLsb' 32 32 ^^^ (cell 2).extractLsb' 32 32
    let c' : Byte := character key 3 ^^^ lo.extractLsb' 0 8
    twistedTab32 m.tt32 key = hi ^^^ (memRead m .tt32 (3 * 256 + c'.toNat)).extractLsb' 32 32) ∧
  (∀ (m : Memory) (key : BitVec 64),
    let cell (i : Nat) : BitVec 128 := memRead m .tt64 (i * 256 + (character key i).toNat)
    let lo : BitVec 64 := (cell 0).extractLsb' 0 64 ^^^ (cell 1).extractLsb' 0 64 ^^^ (cell 2).extractLsb' 0 64 ^^^
      (cell 3).extractLsb' 0 64 ^^^ (cell 4).extractLsb' 0 64 ^^^ (cell 5).extractLsb' 0 64 ^^^
      (cell 6).extractLsb' 0 64
    let hi : BitVec 64 := (cell 0).extractLsb' 64 64 ^^^ (cell 1).extractLsb' 64 64 ^^^ (cell 2).extractLsb' 64 64 ^^^
      (cell 3).extractLsb' 64 64 ^^^ (cell 4).extractLsb' 64 64 ^^^ (cell 5).extractLsb' 64 64 ^^^
      (cell 6).extractLsb' 64 64
    let c' : Byte := character key 7 ^^^ lo.extractLsb' 0 8
    twistedTab64 m.tt64 key = hi ^^^ (memRead m .tt64 (7 * 256 + c'.toNat)).extractLsb' 64 64)

/-- 41_twisted.md R115: with every cell 0 the accumulator before the twist is 0, the twisted character is the key's last
byte, and the hash is 0. -/
def Obligations.ZeroTableTwist : Prop :=
  (∀ m : Memory, (∀ a, a < 0x400 → memRead m .tt32 a = 0#64) → ∀ key : BitVec 32,
    twistedPrefix 4 m.tt32 key = 0#64 ∧ twistedCharacter 4 m.tt32 key = key.extractLsb' 24 8 ∧
    twistedTab32 m.tt32 key = 0#32) ∧
  (∀ m : Memory, (∀ a, a < 0x800 → memRead m .tt64 a = 0#128) → ∀ key : BitVec 64,
    twistedPrefix 8 m.tt64 key = 0#128 ∧ twistedCharacter 8 m.tt64 key = key.extractLsb' 56 8 ∧
    twistedTab64 m.tt64 key = 0#64) ∧
  (∀ s : State, (∀ (b : BankId) (a : Nat), a < b.cells → memRead s.rom b a = 0) → ∀ i : Instr,
    exec i s = .next { s with outValid := true, outHash := 0#64 })

/-- 41_twisted.md R116: with every row but the last 0, the accumulator before the twist is 0, the twisted character is
the key's last byte, and the hash is the upper half of that cell of the last row. -/
def Obligations.TwistedZeroPrefix : Prop :=
  (∀ s : State, (∀ a, a < 0x300 → memRead s.rom .tt32 a = 0#64) → ∀ key : BitVec 32,
    twistedPrefix 4 s.rom.tt32 key = 0#64 ∧ twistedCharacter 4 s.rom.tt32 key = key.extractLsb' 24 8 ∧
    exec (.twistedTab32 key) s = .next { s with
      outValid := true
      outHash := ((memRead s.rom .tt32 (0x300 + (key.extractLsb' 24 8).toNat)).extractLsb' 32 32).setWidth 64 }) ∧
  (∀ s : State, (∀ a, a < 0x700 → memRead s.rom .tt64 a = 0#128) → ∀ key : BitVec 64,
    twistedPrefix 8 s.rom.tt64 key = 0#128 ∧ twistedCharacter 8 s.rom.tt64 key = key.extractLsb' 56 8 ∧
    exec (.twistedTab64 key) s = .next { s with
      outValid := true
      outHash := (memRead s.rom .tt64 (0x700 + (key.extractLsb' 56 8).toNat)).extractLsb' 64 64 })

/-- 41_twisted.md R117: what moves when one key byte changes: the last byte moves the last lookup alone; an earlier byte
moves its own row's lookup, and the twisted character exactly when the two cells differ in their low byte. -/
def Obligations.TwistedSensitivity : Prop :=
  (∀ (m : Memory) (x y : BitVec 32) (j : Fin 4),
    (∀ i : Fin 4, i ≠ j → character x i.val = character y i.val) → character x j.val ≠ character y j.val →
    (j.val = 3 → twistedPrefix 4 m.tt32 x = twistedPrefix 4 m.tt32 y ∧
      twistedCharacter 4 m.tt32 x ^^^ twistedCharacter 4 m.tt32 y = character x 3 ^^^ character y 3 ∧
      twistedCharacter 4 m.tt32 x ≠ twistedCharacter 4 m.tt32 y ∧
      twistedTab32 m.tt32 x ^^^ twistedTab32 m.tt32 y =
        (memRead m .tt32 (3 * 256 + (twistedCharacter 4 m.tt32 x).toNat) ^^^
          memRead m .tt32 (3 * 256 + (twistedCharacter 4 m.tt32 y).toNat)).extractLsb' 32 32) ∧
    (j.val < 3 →
      twistedCharacter 4 m.tt32 x ^^^ twistedCharacter 4 m.tt32 y =
        (memRead m .tt32 (j.val * 256 + (character x j.val).toNat) ^^^
          memRead m .tt32 (j.val * 256 + (character y j.val).toNat)).extractLsb' 0 8 ∧
      (twistedCharacter 4 m.tt32 x ≠ twistedCharacter 4 m.tt32 y ↔
        (memRead m .tt32 (j.val * 256 + (character x j.val).toNat)).extractLsb' 0 8 ≠
          (memRead m .tt32 (j.val * 256 + (character y j.val).toNat)).extractLsb' 0 8))) ∧
  (∀ (m : Memory) (x y : BitVec 64) (j : Fin 8),
    (∀ i : Fin 8, i ≠ j → character x i.val = character y i.val) → character x j.val ≠ character y j.val →
    (j.val = 7 → twistedPrefix 8 m.tt64 x = twistedPrefix 8 m.tt64 y ∧
      twistedCharacter 8 m.tt64 x ^^^ twistedCharacter 8 m.tt64 y = character x 7 ^^^ character y 7 ∧
      twistedCharacter 8 m.tt64 x ≠ twistedCharacter 8 m.tt64 y ∧
      twistedTab64 m.tt64 x ^^^ twistedTab64 m.tt64 y =
        (memRead m .tt64 (7 * 256 + (twistedCharacter 8 m.tt64 x).toNat) ^^^
          memRead m .tt64 (7 * 256 + (twistedCharacter 8 m.tt64 y).toNat)).extractLsb' 64 64) ∧
    (j.val < 7 →
      twistedCharacter 8 m.tt64 x ^^^ twistedCharacter 8 m.tt64 y =
        (memRead m .tt64 (j.val * 256 + (character x j.val).toNat) ^^^
          memRead m .tt64 (j.val * 256 + (character y j.val).toNat)).extractLsb' 0 8 ∧
      (twistedCharacter 8 m.tt64 x ≠ twistedCharacter 8 m.tt64 y ↔
        (memRead m .tt64 (j.val * 256 + (character x j.val).toNat)).extractLsb' 0 8 ≠
          (memRead m .tt64 (j.val * 256 + (character y j.val).toNat)).extractLsb' 0 8)))

/-- 41_twisted.md R118: the table bits that cannot reach the result: two ROMs that agree in the upper half and the low
byte of the cells of rows 0 to n-2 and in the upper half of the last row's cells give the same hashes. -/
def Obligations.DeadTableBits : Prop :=
  (∀ m m' : Memory,
    (∀ a, a < 0x300 → (memRead m .tt32 a).extractLsb' 32 32 = (memRead m' .tt32 a).extractLsb' 32 32 ∧
      (memRead m .tt32 a).extractLsb' 0 8 = (memRead m' .tt32 a).extractLsb' 0 8) →
    (∀ a, 0x300 ≤ a → a < 0x400 →
      (memRead m .tt32 a).extractLsb' 32 32 = (memRead m' .tt32 a).extractLsb' 32 32) →
    ∀ key, twistedTab32 m.tt32 key = twistedTab32 m'.tt32 key) ∧
  (∀ m m' : Memory,
    (∀ a, a < 0x700 → (memRead m .tt64 a).extractLsb' 64 64 = (memRead m' .tt64 a).extractLsb' 64 64 ∧
      (memRead m .tt64 a).extractLsb' 0 8 = (memRead m' .tt64 a).extractLsb' 0 8) →
    (∀ a, 0x700 ≤ a → a < 0x800 →
      (memRead m .tt64 a).extractLsb' 64 64 = (memRead m' .tt64 a).extractLsb' 64 64) →
    ∀ key, twistedTab64 m.tt64 key = twistedTab64 m'.tt64 key)

/-- With the table TID every operation returns its key (95_test_vectors.md section 2). -/
def Obligations.IdentityTableReturnsKey : Prop :=
  ∀ (s : State) (x : BitVec 32) (y : BitVec 64), s.rom = Memory.ofTable Tables.identity →
    exec (.simpleTab32 x) s = .next { s with outValid := true, outHash := x.setWidth 64 } ∧
    exec (.twistedTab32 x) s = .next { s with outValid := true, outHash := x.setWidth 64 } ∧
    exec (.simpleTab64 y) s = .next { s with outValid := true, outHash := y } ∧
    exec (.twistedTab64 y) s = .next { s with outValid := true, outHash := y }

/-- With the table TFOLD a twisted operation returns its key with the top byte replaced by the exclusive or of all key
bytes (95_test_vectors.md section 2). -/
def Obligations.FoldTableFoldsTopByte : Prop :=
  ∀ (s : State) (x : BitVec 32) (y : BitVec 64), s.rom = Memory.ofTable Tables.fold →
    exec (.twistedTab32 x) s = .next { s with
      outValid := true
      outHash := ((x.extractLsb' 24 8 ^^^ x.extractLsb' 16 8 ^^^ x.extractLsb' 8 8 ^^^ x.extractLsb' 0 8) ++
        x.extractLsb' 0 24 : BitVec 32).setWidth 64 } ∧
    exec (.twistedTab64 y) s = .next { s with
      outValid := true
      outHash := (y.extractLsb' 56 8 ^^^ y.extractLsb' 48 8 ^^^ y.extractLsb' 40 8 ^^^ y.extractLsb' 32 8 ^^^
        y.extractLsb' 24 8 ^^^ y.extractLsb' 16 8 ^^^ y.extractLsb' 8 8 ^^^ y.extractLsb' 0 8) ++
        y.extractLsb' 0 56 }
end

