-- ==== Sys2Proof/Laws/Bank.lean ====
section
/-! SUPPORT. The ROM: reading a listed table gives the table's cell, the listing is canonical, and an address below the
first listed one reads as an unlisted cell. -/

namespace Sys2Proof.Machine

variable {w : Nat}

@[simp] theorem Bank.read_nil (a : Nat) : Bank.read ([] : Bank w) a = 0#w := rfl

theorem Bank.read_cons (a x : Nat) (v : BitVec w) (rest : Bank w) :
    Bank.read ((a, v) :: rest) x = if a = x then v else Bank.read rest x := rfl

@[simp] theorem Bank.read_cons_self (a : Nat) (v : BitVec w) (rest : Bank w) :
    Bank.read ((a, v) :: rest) a = v := by simp [Bank.read_cons]

theorem Bank.read_cons_ne {a x : Nat} (h : a ≠ x) (v : BitVec w) (rest : Bank w) :
    Bank.read ((a, v) :: rest) x = Bank.read rest x := by simp [Bank.read_cons, h]

/-- The canonical form of a nonempty bank, taken apart. -/
theorem Bank.wfFrom_cons {size low a : Nat} {v : BitVec w} {rest : Bank w} :
    Bank.wfFrom size low ((a, v) :: rest) = true ↔
      low ≤ a ∧ a < size ∧ v ≠ 0#w ∧ Bank.wfFrom size (a + 1) rest = true := by
  simp only [Bank.wfFrom, Bank.unlisted, Bool.and_eq_true, decide_eq_true_eq, bne_iff_ne, and_assoc]

/-- A canonical form from one address on is one from any earlier address on. -/
theorem Bank.wfFrom_mono {size low low' : Nat} (hle : low' ≤ low) {bank : Bank w}
    (h : Bank.wfFrom size low bank = true) : Bank.wfFrom size low' bank = true := by
  cases bank with
  | nil => rfl
  | cons e rest =>
    obtain ⟨a, v⟩ := e
    rw [Bank.wfFrom_cons] at h ⊢
    exact ⟨by omega, h.2⟩

/-- Below its first address a canonical bank reads as an unlisted cell. -/
theorem Bank.read_below {size low : Nat} {bank : Bank w} (h : Bank.wfFrom size low bank = true) {x : Nat}
    (hx : x < low) : bank.read x = 0#w := by
  induction bank generalizing low with
  | nil => rfl
  | cons e rest ih =>
    obtain ⟨a, v⟩ := e
    rw [Bank.wfFrom_cons] at h
    rw [Bank.read_cons_ne (by omega)]
    exact ih h.2.2.2 (by omega)

/-- Outside its size a canonical bank reads as an unlisted cell. -/
theorem Bank.read_beyond {size low : Nat} {bank : Bank w} (h : Bank.wfFrom size low bank = true) {x : Nat}
    (hx : size ≤ x) : bank.read x = 0#w := by
  induction bank generalizing low with
  | nil => rfl
  | cons e rest ih =>
    obtain ⟨a, v⟩ := e
    rw [Bank.wfFrom_cons] at h
    rw [Bank.read_cons_ne (by omega)]
    exact ih h.2.2.2

/-- The listing of consecutive cells is canonical. -/
theorem Bank.wfFrom_listCells (cell : Nat → BitVec w) {size : Nat} (n low : Nat) (h : low + n ≤ size) :
    Bank.wfFrom size low (Bank.listCells cell (List.range' low n)) = true := by
  induction n generalizing low with
  | zero => rfl
  | succ n ih =>
    have tail := ih (low + 1) (by omega)
    simp only [List.range'_succ, Bank.listCells]
    split
    · exact Bank.wfFrom_mono (by omega) tail
    · rename_i hne
      exact Bank.wfFrom_cons.mpr ⟨by omega, by omega, hne, tail⟩

/-- Reading a listing of consecutive cells gives the cell, and an unlisted cell elsewhere. -/
theorem Bank.read_listCells (cell : Nat → BitVec w) (n low x : Nat) :
    Bank.read (Bank.listCells cell (List.range' low n)) x = if low ≤ x ∧ x < low + n then cell x else 0#w := by
  induction n generalizing low with
  | zero => rw [if_neg (by omega)]; rfl
  | succ n ih =>
    simp only [List.range'_succ, Bank.listCells]
    by_cases hx : low = x
    · subst hx
      split
      · rename_i h0
        rw [ih, if_neg (by omega), if_pos (by omega), h0]; rfl
      · rw [Bank.read_cons_self, if_pos (by omega)]
    · have hc : (low + 1 ≤ x ∧ x < low + 1 + n) ↔ (low ≤ x ∧ x < low + (n + 1)) := by omega
      split
      · rw [ih]; simp only [hc]
      · rw [Bank.read_cons_ne hx, ih]; simp only [hc]

theorem cellAddress_div (i : Nat) (c : Byte) : cellAddress i c / 256 = i := by
  have := c.isLt
  simp only [cellAddress]; omega

theorem cellAddress_mod (i : Nat) (c : Byte) : cellAddress i c % 256 = c.toNat := by
  have := c.isLt
  simp only [cellAddress]; omega

/-- The address of a row inside the bank is inside the bank (20_memory.md R41). -/
theorem cellAddress_lt {rows i : Nat} (h : i < rows) (c : Byte) : cellAddress i c < rows * 256 := by
  have := c.isLt
  simp only [cellAddress]; omega

/-- Different columns of a row are different cells, and different rows too. -/
theorem cellAddress_inj {i j : Nat} {c d : Byte} : cellAddress i c = cellAddress j d ↔ i = j ∧ c = d := by
  constructor
  · intro h
    refine ⟨?_, ?_⟩
    · rw [← cellAddress_div i c, h, cellAddress_div]
    · apply BitVec.eq_of_toNat_eq
      rw [← cellAddress_mod i c, h, cellAddress_mod]
  · rintro ⟨rfl, rfl⟩; rfl

theorem Bank.tableCell_cellAddress {rows : Nat} (t : Fin rows → Byte → BitVec w) (i : Fin rows) (c : Byte) :
    Bank.tableCell rows t (cellAddress i c) = t i c := by
  have hc : BitVec.ofNat 8 (cellAddress i c) = c := by
    apply BitVec.eq_of_toNat_eq
    simpa using cellAddress_mod i c
  have hi : cellAddress i c / 256 < rows := by rw [cellAddress_div]; exact i.isLt
  rw [Bank.tableCell, dif_pos hi, hc]
  congr 1
  exact Fin.ext (cellAddress_div i c)

/-- A bank filled with a table reads as the table at every row and column (20_memory.md R42, R45). -/
@[simp] theorem Bank.read_ofTable {rows : Nat} (t : Fin rows → Byte → BitVec w) (i : Fin rows) (c : Byte) :
    (Bank.ofTable rows t).read (cellAddress i c) = t i c := by
  have := cellAddress_lt i.isLt c
  rw [Bank.ofTable, Bank.read_listCells, if_pos (by omega), Bank.tableCell_cellAddress]

/-- A bank filled with a table is canonical. -/
theorem Bank.wf_ofTable (rows : Nat) (t : Fin rows → Byte → BitVec w) :
    (Bank.ofTable rows t).wf (rows * 256) = true :=
  Bank.wfFrom_listCells _ _ _ (by omega)

/-- The ROM filled with TABLE is canonical, so the memory of State.reset is. -/
theorem Memory.wf_ofTable (t : Config.Table) : (Memory.ofTable t).wf = true := by
  simp only [Memory.wf, Memory.ofTable, Bool.and_eq_true]
  exact ⟨⟨⟨Bank.wf_ofTable 4 _, Bank.wf_ofTable 4 _⟩, Bank.wf_ofTable 8 _⟩, Bank.wf_ofTable 8 _⟩

end Sys2Proof.Machine
end

