-- ==== Sys2Proof/Laws/Encoding.lean ====
section
/-! SUPPORT. A command word is its two fields, and its two fields are the command word. -/

namespace Sys2Proof

/-- Bit `i` of a packed command word. -/
theorem getLsbD_packCommand (v : Variant) (k : KeyField) (i : Nat) :
    (packCommand v k).getLsbD i = if i < 64 then k.getLsbD i else v.getLsbD (i - 64) :=
  BitVec.getLsbD_append

@[simp] theorem packCommand_variant (v : Variant) (k : KeyField) : (packCommand v k).variant = v := by
  apply BitVec.eq_of_getLsbD_eq
  intro i hi
  rw [CommandWord.variant, BitVec.getLsbD_extractLsb', getLsbD_packCommand, if_neg (by omega)]
  simp [hi]

@[simp] theorem packCommand_keyField (v : Variant) (k : KeyField) : (packCommand v k).keyField = k := by
  apply BitVec.eq_of_getLsbD_eq
  intro i hi
  rw [CommandWord.keyField, BitVec.getLsbD_extractLsb', getLsbD_packCommand, if_pos (by omega)]
  simp [hi]

@[simp] theorem packCommand_fields (w : CommandWord) : packCommand w.variant w.keyField = w := by
  apply BitVec.eq_of_getLsbD_eq
  intro i hi
  rw [getLsbD_packCommand, CommandWord.variant, CommandWord.keyField, BitVec.getLsbD_extractLsb',
    BitVec.getLsbD_extractLsb']
  split
  · rename_i h
    simp [h]
  · rename_i h
    have hlow : i - 64 < 2 := by omega
    have hadd : 64 + (i - 64) = i := by omega
    simp [hlow, hadd]

/-- Two command words with the same fields are the same word. -/
theorem CommandWord.ext_fields {w w' : CommandWord} (hv : w.variant = w'.variant) (hk : w.keyField = w'.keyField) :
    w = w' := by
  rw [← packCommand_fields w, ← packCommand_fields w', hv, hk]

theorem decode_packCommand (v : Variant) (k : KeyField) : decode (packCommand v k) = decodeFields v k := by
  simp [decode]

@[simp] theorem decodeFields_simpleTab32 (k : KeyField) :
    decodeFields 0b00#2 k = .simpleTab32 (k.extractLsb' 0 32) := rfl
@[simp] theorem decodeFields_twistedTab32 (k : KeyField) :
    decodeFields 0b01#2 k = .twistedTab32 (k.extractLsb' 0 32) := rfl
@[simp] theorem decodeFields_simpleTab64 (k : KeyField) : decodeFields 0b10#2 k = .simpleTab64 k := rfl
@[simp] theorem decodeFields_twistedTab64 (k : KeyField) : decodeFields 0b11#2 k = .twistedTab64 k := rfl

/-- The four values of the selector (30_encoding.md R71). -/
theorem variant_cases (v : Variant) : v = 0b00#2 ∨ v = 0b01#2 ∨ v = 0b10#2 ∨ v = 0b11#2 := by
  revert v
  decide

/-- What the raw decoder can answer: the decoded word, or the one rejection. -/
theorem decodeRaw_cases (raw : Nat) :
    (raw < 2 ^ 66 ∧ decodeRaw raw = .ok (decode (BitVec.ofNat 66 raw))) ∨
      (2 ^ 66 ≤ raw ∧ decodeRaw raw = .error .widerThanCommand) := by
  by_cases h : raw < 2 ^ 66
  · exact .inl ⟨h, by simp only [decodeRaw, CommandWord.wellFormed, h, decide_true, if_true]⟩
  · exact .inr ⟨by omega, by simp only [decodeRaw, CommandWord.wellFormed, h, decide_false, Bool.false_eq_true, if_false]⟩

end Sys2Proof
end

