-- ==== Sys2Proof/Laws/State.lean ====
section
/-! SUPPORT. One lemma per field per update, so that no proof unfolds a record update. -/

namespace Sys2Proof.Machine

variable (s : State) (valid : Bool) (value : BitVec 64) (w : CommandWord) (nbits n : Nat)

@[simp] theorem State.setOutputs_rom : (s.setOutputs valid value).rom = s.rom := rfl
@[simp] theorem State.setOutputs_outValid : (s.setOutputs valid value).outValid = valid := rfl
@[simp] theorem State.setOutputs_outHash : (s.setOutputs valid value).outHash = value := rfl
@[simp] theorem State.setOutputs_inputs : (s.setOutputs valid value).inputs = s.inputs := rfl

@[simp] theorem State.respond_rom : (s.respond value).rom = s.rom := rfl
@[simp] theorem State.respond_outValid : (s.respond value).outValid = true := rfl
@[simp] theorem State.respond_outHash : (s.respond value).outHash = value := rfl
@[simp] theorem State.respond_inputs : (s.respond value).inputs = s.inputs := rfl

@[simp] theorem State.noResponse_rom : s.noResponse.rom = s.rom := rfl
@[simp] theorem State.noResponse_outValid : s.noResponse.outValid = false := rfl
@[simp] theorem State.noResponse_outHash : s.noResponse.outHash = 0#64 := rfl
@[simp] theorem State.noResponse_inputs : s.noResponse.inputs = s.inputs := rfl

@[simp] theorem State.resetOutputs_rom : s.resetOutputs.rom = s.rom := rfl
@[simp] theorem State.resetOutputs_outValid : s.resetOutputs.outValid = false := rfl
@[simp] theorem State.resetOutputs_outHash : s.resetOutputs.outHash = 0#64 := rfl
@[simp] theorem State.resetOutputs_inputs : s.resetOutputs.inputs = s.inputs := rfl

@[simp] theorem presentCommand_rom : (presentCommand w s).rom = s.rom := rfl
@[simp] theorem presentCommand_outValid : (presentCommand w s).outValid = s.outValid := rfl
@[simp] theorem presentCommand_outHash : (presentCommand w s).outHash = s.outHash := rfl
@[simp] theorem presentCommand_inputs : (presentCommand w s).inputs = Pins.ofCommand w :: s.inputs := rfl

@[simp] theorem State.withFetchWord_rom : (s.withFetchWord nbits n).rom = s.rom := rfl
@[simp] theorem State.withFetchWord_outValid : (s.withFetchWord nbits n).outValid = s.outValid := rfl
@[simp] theorem State.withFetchWord_outHash : (s.withFetchWord nbits n).outHash = s.outHash := rfl
@[simp] theorem State.withFetchWord_inputs :
    (s.withFetchWord nbits n).inputs = Pins.ofCommand (BitVec.ofNat 66 (tableWord nbits n)) :: s.inputs := rfl

@[simp] theorem State.reset_rom : State.reset.rom = Memory.ofTable Config.table := rfl
@[simp] theorem State.reset_outValid : State.reset.outValid = false := rfl
@[simp] theorem State.reset_outHash : State.reset.outHash = 0#64 := rfl
@[simp] theorem State.reset_inputs : State.reset.inputs = [] := rfl

@[simp] theorem State.powerOn_rom : State.powerOn.rom = Memory.ofTable Config.table := rfl
@[simp] theorem State.powerOn_inputs : State.powerOn.inputs = [] := rfl

@[simp] theorem State.rspValid_eq : s.rspValid = s.outValid := rfl
@[simp] theorem State.rspHash_eq : s.rspHash = s.outHash := rfl

@[simp] theorem Memory.bank_st32 (m : Memory) : m.bank .st32 = m.st32 := rfl
@[simp] theorem Memory.bank_tt32 (m : Memory) : m.bank .tt32 = m.tt32 := rfl
@[simp] theorem Memory.bank_st64 (m : Memory) : m.bank .st64 = m.st64 := rfl
@[simp] theorem Memory.bank_tt64 (m : Memory) : m.bank .tt64 = m.tt64 := rfl

theorem memRead_eq (m : Memory) (b : BankId) (a : Nat) : memRead m b a = (m.bank b).read a := rfl

/-- Reading the cell of a row and a column (20_memory.md R41, R42). -/
theorem memRead_cell (m : Memory) (b : BankId) (i : Nat) (c : Byte) :
    memRead m b (i * 256 + c.toNat) = (m.bank b).read (cellAddress i c) := rfl

@[simp] theorem Memory.ofTable_st32 (t : Config.Table) : (Memory.ofTable t).st32 = Bank.ofTable 4 t.st32 := rfl
@[simp] theorem Memory.ofTable_tt32 (t : Config.Table) : (Memory.ofTable t).tt32 = Bank.ofTable 4 t.tt32 := rfl
@[simp] theorem Memory.ofTable_st64 (t : Config.Table) : (Memory.ofTable t).st64 = Bank.ofTable 8 t.st64 := rfl
@[simp] theorem Memory.ofTable_tt64 (t : Config.Table) : (Memory.ofTable t).tt64 = Bank.ofTable 8 t.tt64 := rfl

@[simp] theorem Pins.ofCommand_rst : (Pins.ofCommand w).rst = false := rfl
@[simp] theorem Pins.ofCommand_reqValid : (Pins.ofCommand w).reqValid = true := rfl
@[simp] theorem Pins.ofCommand_reqVariant : (Pins.ofCommand w).reqVariant = w.variant := rfl
@[simp] theorem Pins.ofCommand_reqKey : (Pins.ofCommand w).reqKey = w.keyField := rfl

end Sys2Proof.Machine
end

