-- ==== Sys2Proof/Laws/Hash.lean ====
section
/-! SUPPORT. What the shared accumulation computes, and the four function blocks as exclusive ors of cells. -/

namespace Sys2Proof.Machine

variable {c w : Nat}

@[simp] theorem xorRows_nil (bank : Bank c) (key : BitVec w) (h : BitVec c) : xorRows bank key [] h = h := rfl

@[simp] theorem xorRows_cons (bank : Bank c) (key : BitVec w) (i : Nat) (rest : List Nat) (h : BitVec c) :
    xorRows bank key (i :: rest) h =
      xorRows bank key rest (h ^^^ bank.read (cellAddress i (character key i))) := rfl

/-- The starting value of the accumulator only adds its own bits. -/
theorem xorRows_start (bank : Bank c) (key : BitVec w) (rows : List Nat) (h : BitVec c) :
    xorRows bank key rows h = h ^^^ xorRows bank key rows 0#c := by
  induction rows generalizing h with
  | nil => simp
  | cons i rest ih =>
    rw [xorRows_cons, xorRows_cons, ih, ih (0#c ^^^ _)]
    simp [BitVec.xor_assoc]

/-- Rows that read the same cells give the same accumulator: the bank and the key matter only through the cells read. -/
theorem xorRows_congr {v : Nat} {bank bank' : Bank c} {key : BitVec w} {key' : BitVec v} {rows : List Nat}
    (h : ∀ i ∈ rows, bank.read (cellAddress i (character key i)) = bank'.read (cellAddress i (character key' i)))
    (start : BitVec c) : xorRows bank key rows start = xorRows bank' key' rows start := by
  induction rows generalizing start with
  | nil => rfl
  | cons i rest ih =>
    rw [xorRows_cons, xorRows_cons, h i (by simp)]
    exact ih (fun j hj => h j (by simp [hj])) _

/-- Any map that carries exclusive or to exclusive or can be taken of each cell instead of the accumulator. -/
theorem xorRows_map {d : Nat} (f : BitVec c → BitVec d) (hf : ∀ x y, f (x ^^^ y) = f x ^^^ f y) (bank : Bank c)
    (key : BitVec w) (rows : List Nat) (h : BitVec c) :
    f (xorRows bank key rows h) =
      rows.foldl (fun acc i => acc ^^^ f (bank.read (cellAddress i (character key i)))) (f h) := by
  induction rows generalizing h with
  | nil => rfl
  | cons i rest ih => rw [xorRows_cons, ih, hf]; rfl

/-- The accumulation is the exclusive or, from the starting value on, of the cells read. -/
theorem xorRows_eq_foldl (bank : Bank c) (key : BitVec w) (rows : List Nat) (h : BitVec c) :
    xorRows bank key rows h =
      (rows.map fun i => bank.read (cellAddress i (character key i))).foldl (· ^^^ ·) h := by
  induction rows generalizing h with
  | nil => rfl
  | cons i rest ih => rw [xorRows_cons, ih]; rfl

theorem lowByte_xor (x y : BitVec c) : lowByte (x ^^^ y) = lowByte x ^^^ lowByte y := by
  apply BitVec.eq_of_getLsbD_eq
  intro i hi
  simp [lowByte, hi]

theorem upperHalf_xor (x y : BitVec c) : upperHalf w (x ^^^ y) = upperHalf w x ^^^ upperHalf w y := by
  apply BitVec.eq_of_getLsbD_eq
  intro i hi
  simp [upperHalf, hi]

theorem character_xor (x y : BitVec w) (i : Nat) : character (x ^^^ y) i = character x i ^^^ character y i := by
  apply BitVec.eq_of_getLsbD_eq
  intro j hj
  simp [character, hj]

/-- The upper half is the slice above bit `w` (90_conflicts.md C5). -/
theorem upperHalf_eq_extract (h : BitVec c) : upperHalf w h = h.extractLsb' w w := by
  apply BitVec.eq_of_getLsbD_eq
  intro i hi
  simp [upperHalf, hi]

/-- SimpleTab32 as the exclusive or of its four cells (40_simple.md R90, unrolled). -/
theorem simpleTab32_cells (bank : Bank 32) (key : BitVec 32) :
    simpleTab32 bank key =
      bank.read (cellAddress 0 (character key 0)) ^^^ bank.read (cellAddress 1 (character key 1)) ^^^
        bank.read (cellAddress 2 (character key 2)) ^^^ bank.read (cellAddress 3 (character key 3)) := by
  simp [simpleTab32, simpleHash, List.range']

/-- SimpleTab64 as the exclusive or of its eight cells (40_simple.md R91, unrolled). -/
theorem simpleTab64_cells (bank : Bank 64) (key : BitVec 64) :
    simpleTab64 bank key =
      bank.read (cellAddress 0 (character key 0)) ^^^ bank.read (cellAddress 1 (character key 1)) ^^^
        bank.read (cellAddress 2 (character key 2)) ^^^ bank.read (cellAddress 3 (character key 3)) ^^^
        bank.read (cellAddress 4 (character key 4)) ^^^ bank.read (cellAddress 5 (character key 5)) ^^^
        bank.read (cellAddress 6 (character key 6)) ^^^ bank.read (cellAddress 7 (character key 7)) := by
  simp [simpleTab64, simpleHash, List.range']

/-- The TwistedTab32 accumulator before its last row (41_twisted.md R110 steps 1 and 2, unrolled). -/
theorem twistedPrefix_four (bank : Bank 64) (key : BitVec 32) :
    twistedPrefix 4 bank key =
      bank.read (cellAddress 0 (character key 0)) ^^^ bank.read (cellAddress 1 (character key 1)) ^^^
        bank.read (cellAddress 2 (character key 2)) := by
  simp [twistedPrefix, List.range']

/-- The TwistedTab64 accumulator before its last row (41_twisted.md R111 steps 1 and 2, unrolled). -/
theorem twistedPrefix_eight (bank : Bank 128) (key : BitVec 64) :
    twistedPrefix 8 bank key =
      bank.read (cellAddress 0 (character key 0)) ^^^ bank.read (cellAddress 1 (character key 1)) ^^^
        bank.read (cellAddress 2 (character key 2)) ^^^ bank.read (cellAddress 3 (character key 3)) ^^^
        bank.read (cellAddress 4 (character key 4)) ^^^ bank.read (cellAddress 5 (character key 5)) ^^^
        bank.read (cellAddress 6 (character key 6)) := by
  simp [twistedPrefix, List.range']

/-- A twisted hash from the upper halves of its prefix and of its last cell (41_twisted.md R114). -/
theorem twistedHash_halves (rows : Nat) (bank : Bank c) (key : BitVec w) :
    twistedHash rows bank key =
      upperHalf w (twistedPrefix rows bank key) ^^^
        upperHalf w (bank.read (cellAddress (rows - 1) (twistedCharacter rows bank key))) :=
  upperHalf_xor _ _

@[simp] theorem hash_simpleTab32 (m : Memory) (k : KeyField) :
    hash m 0b00#2 k = (simpleTab32 m.st32 (k.setWidth 32)).setWidth 64 := rfl
@[simp] theorem hash_twistedTab32 (m : Memory) (k : KeyField) :
    hash m 0b01#2 k = (twistedTab32 m.tt32 (k.setWidth 32)).setWidth 64 := rfl
@[simp] theorem hash_simpleTab64 (m : Memory) (k : KeyField) : hash m 0b10#2 k = simpleTab64 m.st64 k := rfl
@[simp] theorem hash_twistedTab64 (m : Memory) (k : KeyField) : hash m 0b11#2 k = twistedTab64 m.tt64 k := rfl

end Sys2Proof.Machine
end

