-- ==== Sys2Proof/Laws/PerInstr.lean ====
section
/-! SUPPORT. Statements about every instruction, one lemma per constructor. -/

namespace Sys2Proof.Laws.RowMatch

/-- The mask of every row of the opcode table: bits 65 and 64 (30_encoding.md R71). -/
def mask : CommandWord := 0x30000000000000000#66

/-- The match value of the instruction's own row (30_encoding.md R71). -/
def pattern : Instr → CommandWord
  | .simpleTab32 _ => 0x00000000000000000#66
  | .twistedTab32 _ => 0x10000000000000000#66
  | .simpleTab64 _ => 0x20000000000000000#66
  | .twistedTab64 _ => 0x30000000000000000#66

/-- The encoding of an instruction meets the match and mask of its row of the opcode table. -/
def Statement (i : Instr) : Prop := encode i &&& mask = pattern i

/-- Under the mask a command word is its selector over zeros. -/
theorem masked_packCommand (v : Variant) (k : KeyField) : packCommand v k &&& mask = packCommand v 0#64 := by
  have hm : mask = packCommand 0b11#2 0#64 := by decide
  have hv : v &&& 0b11#2 = v := by revert v; decide
  apply BitVec.eq_of_getLsbD_eq
  intro i hi
  rw [BitVec.getLsbD_and, hm, getLsbD_packCommand, getLsbD_packCommand, getLsbD_packCommand]
  split
  · simp
  · rw [← BitVec.getLsbD_and, hv]

/-- A selector over zeros is a row's match value: the four cases of the opcode map (30_encoding.md R71). -/
theorem variant_pattern (i : Instr) : packCommand i.variant 0#64 = pattern i := by
  cases i with
  | simpleTab32 _ => exact (by decide : packCommand 0b00#2 0#64 = 0x00000000000000000#66)
  | twistedTab32 _ => exact (by decide : packCommand 0b01#2 0#64 = 0x10000000000000000#66)
  | simpleTab64 _ => exact (by decide : packCommand 0b10#2 0#64 = 0x20000000000000000#66)
  | twistedTab64 _ => exact (by decide : packCommand 0b11#2 0#64 = 0x30000000000000000#66)

theorem simpleTab32 (key : BitVec 32) : Statement (.simpleTab32 key) :=
  (masked_packCommand _ _).trans (variant_pattern (.simpleTab32 key))

theorem twistedTab32 (key : BitVec 32) : Statement (.twistedTab32 key) :=
  (masked_packCommand _ _).trans (variant_pattern (.twistedTab32 key))

theorem simpleTab64 (key : BitVec 64) : Statement (.simpleTab64 key) :=
  (masked_packCommand _ _).trans (variant_pattern (.simpleTab64 key))

theorem twistedTab64 (key : BitVec 64) : Statement (.twistedTab64 key) :=
  (masked_packCommand _ _).trans (variant_pattern (.twistedTab64 key))

end Sys2Proof.Laws.RowMatch
end

