-- ==== Sys2Proof/Laws/Step.lean ====
section
/-! SUPPORT. What the pins present, what taking an input does, and what an executed instruction and a step can answer. -/

namespace Sys2Proof.Machine

/-- The three inputs the pins can present (30_encoding.md R75). -/
theorem Pins.input_cases (p : Pins) :
    (p.rst = true ∧ p.input = .reset) ∨ (p.rst = false ∧ p.reqValid = false ∧ p.input = .idle) ∨
      (p.rst = false ∧ p.reqValid = true ∧ p.input = .cmd (packCommand p.reqVariant p.reqKey)) := by
  obtain ⟨rst, valid, v, k⟩ := p
  cases rst <;> cases valid <;> simp [Pins.input]

@[simp] theorem Pins.input_ofCommand (w : CommandWord) : (Pins.ofCommand w).input = .cmd w := by
  simp [Pins.input]

/-- Taking an input reads the next record, or stays where no record is left. -/
theorem takeInput_cases (s : State) :
    (s.inputs = [] ∧ takeInput s = (.idle, s)) ∨
      (∃ p rest, s.inputs = p :: rest ∧ takeInput s = (p.input, { s with inputs := rest })) := by
  cases h : s.inputs with
  | nil => exact .inl ⟨rfl, by simp [takeInput, h]⟩
  | cons p rest => exact .inr ⟨p, rest, rfl, by simp [takeInput, h]⟩

/-- Executing a decoded command responds with the engine's hash of its fields (42_engine.md R131, R132). -/
theorem exec_decode (w : CommandWord) (s : State) :
    exec (decode w) s = .next (s.respond (hash s.rom w.variant w.keyField)) := by
  have hk : w.keyField.setWidth 32 = w.keyField.extractLsb' 0 32 := by
    apply BitVec.eq_of_getLsbD_eq
    intro i hi
    simp [hi]
  rcases variant_cases w.variant with h | h | h | h <;>
    simp [decode, h, exec, execSimpleTab32, execTwistedTab32, execSimpleTab64, execTwistedTab64, placeHash32,
      placeHash64, hk]

/-- All a step can do: it takes an input, and writes both registers from that input and the ROM alone. -/
theorem step_cases (s : State) :
    (∃ s', (takeInput s = (.reset, s') ∨ takeInput s = (.idle, s')) ∧
        step s = .next (s'.setOutputs false 0#64)) ∨
      (∃ w s', takeInput s = (.cmd w, s') ∧
        step s = .next (s'.respond (hash s'.rom w.variant w.keyField))) := by
  unfold step
  rcases h : takeInput s with ⟨i, s'⟩
  cases i with
  | reset => exact .inl ⟨s', .inl rfl, rfl⟩
  | idle => exact .inl ⟨s', .inr rfl, rfl⟩
  | cmd w => exact .inr ⟨w, s', rfl, exec_decode w s'⟩

end Sys2Proof.Machine
end

