-- ==== Sys2Proof/Laws/Run.lean ====
section
/-! SUPPORT. What one step over a given input answers, and runs of several steps. -/

namespace Sys2Proof.Machine

/-- A step's next state, from the input it took and the state that left (the one place a step is taken apart). -/
theorem step_eq_response (s : State) :
    step s = .next ((takeInput s).2.setOutputs (response s.rom (takeInput s).1).1
      (response s.rom (takeInput s).1).2) := by
  have hrom : (takeInput s).2.rom = s.rom := by
    rcases takeInput_cases s with ⟨_, h⟩ | ⟨p, rest, _, h⟩ <;> rw [h]
  unfold step
  rcases h : takeInput s with ⟨i, s'⟩
  rw [h] at hrom
  cases i with
  | reset => rfl
  | idle => rfl
  | cmd w => exact (exec_decode w s').trans (by rw [hrom]; rfl)

@[simp] theorem run_zero (s : State) : run 0 s = .next s := rfl

/-- A run goes on from the next state of its first step. -/
theorem run_succ {s t : State} (h : step s = .next t) (k : Nat) : run (k + 1) s = run k t := by
  show Sys2Proof.core.run (k + 1) s = Sys2Proof.core.run k t
  simp only [Host.Core.run, Sys2Proof.core]
  rw [h]

/-- Responses of a run, from its first step on. -/
theorem responses_succ {s t : State} (h : step s = .next t) (k : Nat) :
    responses (k + 1) s = t.responseOf ++ responses k t := by
  simp only [responses, h]

@[simp] theorem responses_zero (s : State) : responses 0 s = [] := rfl

end Sys2Proof.Machine
end

