-- ==== Sys2Proof/Machine/Listing.lean ====
section
/-! DEFINITION. The written form of commands and inputs (30_encoding.md R76). -/

namespace Sys2Proof.Machine

/-- One hexadecimal digit. -/
def hexDigit (v : Nat) : Char := if v < 10 then Char.ofNat (48 + v) else Char.ofNat (55 + v)

/-- The lowest `n` hexadecimal digits of a value, most significant first. -/
def hexDigits : Nat → Nat → List Char
  | 0, _ => []
  | n + 1, v => hexDigits n (v / 16) ++ [hexDigit (v % 16)]

/-- A command word as 17 hexadecimal digits: the selector, then KEY (30_encoding.md R76). -/
def commandDigits (w : CommandWord) : List Char := hexDigits 17 w.toNat

/-- The key of an operation in hexadecimal digits of the key's width (30_encoding.md R76). -/
def keyDigits : Instr → List Char
  | .simpleTab32 key => hexDigits 8 key.toNat
  | .twistedTab32 key => hexDigits 8 key.toNat
  | .simpleTab64 key => hexDigits 16 key.toNat
  | .twistedTab64 key => hexDigits 16 key.toNat

/-- The operation's name followed by its key (30_encoding.md R76). -/
def instrText (i : Instr) : String := i.mnemonic ++ " 0x" ++ String.ofList (keyDigits i)

/-- The written form of a step's input (30_encoding.md R76). -/
def inputText : Input → String
  | .reset => "RESET"
  | .idle => "IDLE"
  | .cmd w => instrText (decode w)

end Sys2Proof.Machine
end

