-- ==== Sys2Proof/Tests/Slice0.lean ====
section
/-! SUPPORT. Own tests on small states, every expected value taken from spec/, and a witness for every statement that has
hypotheses. -/

namespace Sys2Proof.Tests

open Sys2Proof.Machine

/-! ## Well-formedness and decoding -/

/-- A number of 67 bits is no command word (30_encoding.md R70). -/
theorem test_wellFormed_refuses_67_bits : CommandWord.wellFormed 0x40000000000000000 = false := by decide

theorem test_decodeRaw_refuses_67_bits : decodeRaw 0x40000000000000000 = .error .widerThanCommand := by decide

theorem test_wellFormed_accepts_largest : CommandWord.wellFormed 0x3FFFFFFFFFFFFFFFF = true := by decide

/-- 30_encoding.md R76: the words of the syntax section, both ways. -/
theorem test_word_simpleTab32 : decode 0x00000000001020304#66 = .simpleTab32 0x01020304#32 ∧
    encode (.simpleTab32 0x01020304#32) = 0x00000000001020304#66 := by decide
theorem test_word_twistedTab32 : decode 0x10000000001020304#66 = .twistedTab32 0x01020304#32 ∧
    encode (.twistedTab32 0x01020304#32) = 0x10000000001020304#66 := by decide
theorem test_word_simpleTab64 : decode 0x20102030405060708#66 = .simpleTab64 0x0102030405060708#64 ∧
    encode (.simpleTab64 0x0102030405060708#64) = 0x20102030405060708#66 := by decide
theorem test_word_twistedTab64 : decode 0x30102030405060708#66 = .twistedTab64 0x0102030405060708#64 ∧
    encode (.twistedTab64 0x0102030405060708#64) = 0x30102030405060708#66 := by decide

/-- 95 V-E-6: CMD[63:32] is ignored. -/
theorem test_decode_ignores_upper_key : decode 0x1DEADBEEF01020304#66 = .twistedTab32 0x01020304#32 := by decide

/-- The host's numbering of a table word: 66 bits in nine bytes. -/
theorem test_decodeTableWord_nine_bytes :
    decodeTableWord 72 0x3FFFFFFFFFFFFFFFF = some (.twistedTab64 0xFFFFFFFFFFFFFFFF#64) := by decide

/-- 30_encoding.md R76: a command word is printed as 17 digits, a 32-bit key as 8. -/
theorem test_commandDigits :
    commandDigits 0x3DEADBEEFCAFEF00D#66 =
      ['3', 'D', 'E', 'A', 'D', 'B', 'E', 'E', 'F', 'C', 'A', 'F', 'E', 'F', '0', '0', 'D'] := by decide
theorem test_instrText : instrText (.simpleTab32 0x01020304#32) = "SimpleTab32 0x01020304" := by decide

/-! ## The canonical form of a bank -/

theorem test_bank_wf_refuses_unsorted : Bank.wf 1024 [(5, 1#32), (4, 1#32)] = false := by decide
theorem test_bank_wf_refuses_unlisted_value : Bank.wf 1024 [(5, 0#32)] = false := by decide
theorem test_bank_wf_refuses_beyond : Bank.wf 1024 [(1024, 1#32)] = false := by decide
theorem test_bank_wf_accepts_last_cell : Bank.wf 1024 [(0, 1#32), (1023, 1#32)] = true := by decide

/-! ## One step of each operation -/

/-- The cells that the traces of 95_test_vectors.md section 3 list for `TMUL` and that section 2 gives for `TFOLD`
are written out bank by bank; the other cells of these ROMs are not read. -/
def romOf (st32 : Bank 32) (tt32 : Bank 64) (st64 : Bank 64) (tt64 : Bank 128) : Memory where
  st32 := st32
  tt32 := tt32
  st64 := st64
  tt64 := tt64

/-- A state with stale output registers, so that a test sees that a step writes both. -/
def stateOn (rom : Memory) (inputs : List Pins) : State where
  rom := rom
  outValid := false
  outHash := 0xFFFFFFFFFFFFFFFF#64
  inputs := inputs

/-- What the host observes after one step with a command word on the pins. -/
def observe (rom : Memory) (w : Nat) : Option (Bool × BitVec 64) :=
  match step ((stateOn rom []).withFetchWord 72 w) with
  | .next t => some (t.rspValid, t.rspHash)
  | .fault _ => none
  | .refused _ => none

/-- V-E-5 and the trace of V-S32-9: TMUL, key 0x01020304, ignored bits all ones. -/
theorem test_simpleTab32_trace :
    observe (romOf [(0x004, 0x17156075#32), (0x103, 0xB05797C4#32), (0x202, 0x4999CF13#32), (0x301, 0xE2DC0662#32)]
      [] [] []) 0x0FFFFFFFF01020304 = some (true, 0x000000000C073EC0#64) := by decide

/-- V-S32-5: TMUL, key 0 reads column 0 of every row. -/
theorem test_simpleTab32_key_zero :
    observe (romOf [(0x000, 0x9E3779B1#32), (0x100, 0xD5B12AB1#32), (0x200, 0x0D2ADBB1#32), (0x300, 0x44A48CB1#32)]
      [] [] []) 0x00000000000000000 = some (true, 0x0000000002080400#64) := by decide

/-- V-E-6 and the trace of V-T32-9: TMUL, c' = 0x03, ignored bits 0xDEADBEEF. -/
theorem test_twistedTab32_trace :
    observe (romOf [] [(0x004, 0x1715609F7C746C69#64), (0x103, 0xB057A06547A60554#64), (0x202, 0x4999E02B12D79E3F#64),
      (0x303, 0x1F4B1363DC9E2F54#64)] [] []) 0x1DEADBEEF01020304 = some (true, 0x00000000F19033B2#64) := by decide

/-- V-T32-4b: TFOLD, the low byte equals the last byte, so row 3 is read at column 0. -/
theorem test_twistedTab32_twist_to_zero :
    observe (romOf [] [(0x0FF, 0x000000FF000000FF#64), (0x1FF, 0x0000FF00000000FF#64), (0x2FF, 0x00FF0000000000FF#64),
      (0x3FF, 0xFF00000000000000#64)] [] []) 0x100000000FFFFFFFF = some (true, 0x0000000000FFFFFF#64) := by decide

/-- V-E-7 and the trace of V-S64-9: TMUL, key 0x0102030405060708. -/
theorem test_simpleTab64_trace :
    observe (romOf [] [] [(0x008, 0x8FF34785799E5CBD#64), (0x107, 0x2935874B44CFF5A8#64), (0x206, 0xC277C71110018E93#64),
      (0x305, 0x5BBA06D6DB33277E#64), (0x404, 0xF4FC469CA664C069#64), (0x503, 0x8E3E866271965954#64),
      (0x602, 0x2780C6283CC7F23F#64), (0x701, 0xC0C305EE07F98B2A#64)] [])
      0x20102030405060708 = some (true, 0xA28A02311AAFE0D0#64) := by decide

/-- V-S64-5: TMUL, key 0 reads column 0 of all eight rows. -/
theorem test_simpleTab64_key_zero :
    observe (romOf [] [] [(0x000, 0x9E3779B97F4A7C15#64), (0x100, 0xD5B13338C9C69115#64), (0x200, 0x0D2AECB81442A615#64),
      (0x300, 0x44A4A6375EBEBB15#64), (0x400, 0x7C1E5FB6A93AD015#64), (0x500, 0xB3981935F3B6E515#64),
      (0x600, 0xEB11D2B53E32FA15#64), (0x700, 0x228B8C3488AF0F15#64)] [])
      0x20000000000000000 = some (true, 0x0414180C10613000#64) := by decide

/-- V-E-8 and the trace of V-T64-9: TMUL, c' = 0x7B. -/
theorem test_twistedTab64_trace :
    observe (romOf [] [] [] [(0x008, 0x8FF34785799E5CC59082C363445C09DD#128), (0x107, 0x2935874B44CFF6A339A6635FD53676A8#128),
      (0x206, 0xC277C71110019080E2CA035C6610E373#128), (0x305, 0x5BBA06D6DB332A5E8BEDA358F6EB503E#128),
      (0x404, 0xF4FC469CA664C43C3511435587C5BD09#128), (0x503, 0x8E3E866271965E19DE34E35218A029D4#128),
      (0x602, 0x2780C6283CC7F7F78758834EA97A969F#128), (0x77B, 0x27330854B178B44B492FD13783A66CAC#128)])
      0x30102030405060708 = some (true, 0x457A0F8BAC2EC921#64) := by decide

/-- V-T64-4b: TFOLD, the low byte of seven 0xFF characters equals the last byte, so row 7 is read at column 0. -/
theorem test_twistedTab64_twist_to_zero :
    observe (romOf [] [] [] [(0x0FF, 0x00000000000000FF00000000000000FF#128), (0x1FF, 0x000000000000FF0000000000000000FF#128),
      (0x2FF, 0x0000000000FF000000000000000000FF#128), (0x3FF, 0x00000000FF00000000000000000000FF#128),
      (0x4FF, 0x000000FF0000000000000000000000FF#128), (0x5FF, 0x0000FF000000000000000000000000FF#128),
      (0x6FF, 0x00FF00000000000000000000000000FF#128), (0x7FF, 0xFF000000000000000000000000000000#128)])
      0x3FFFFFFFFFFFFFFFF = some (true, 0x00FFFFFFFFFFFFFF#64) := by decide

/-! ## The steps without a command -/

/-- What the registers hold after one step on the given pins. -/
def observePins (p : Pins) : Option (Bool × BitVec 64) :=
  match step (stateOn (romOf [] [] [] []) [p]) with
  | .next t => some (t.outValid, t.outHash)
  | .fault _ => none
  | .refused _ => none

/-- P3 step 0: reset beats a command on the pins. -/
theorem test_reset_beats_command :
    observePins ⟨true, true, 0b11#2, 0xDEADBEEFCAFEF00D#64⟩ = some (false, 0#64) := by decide

/-- 42_engine.md R131: an Idle step clears the registers, whatever the request holds. -/
theorem test_idle_clears : observePins ⟨false, false, 0b10#2, 0xDEADBEEFCAFEF00D#64⟩ = some (false, 0#64) := by decide

/-! ## The tables the spec names, at its spot values (95_test_vectors.md section 2) -/

theorem test_multiples_st32 : Tables.multiples.st32 1 0x00#8 = 0xD5B12AB1#32 := by decide
theorem test_multiples_tt64 : Tables.multiples.tt64 0 0x01#8 = 0x3C6EF372FE94F82BE73980C0B9DB906A#128 := by decide
theorem test_rowSelector_st32 : Tables.rowSelector.st32 3 0x55#8 = 0x04000000#32 := by decide
theorem test_identity_tt32 : Tables.identity.tt32 2 0xAB#8 = 0x00AB000000000000#64 := by decide
theorem test_fold_last_row : Tables.fold.tt32 3 0x22#8 = 0x2200000000000000#64 := by decide
theorem test_lastRow_tt32 : Tables.lastRow.tt32 3 0xDE#8 = 0x000010DEFFFFFFFF#64 := by decide

/-! ## Witnesses: a concrete state and operands for the hypotheses of each statement that has some -/

/-- The ROM of zeros (`T0`), canonical, with nothing listed. -/
def zeroRom : Memory := romOf [] [] [] []

/-- A state over the ROM of zeros. -/
def zeroState : State := stateOn zeroRom []

/-- Its next state after a command: every hash is 0. -/
def zeroNext : State := { zeroState with outValid := true, outHash := 0#64 }

theorem test_witness_ExecFrame_narrow :
    exec (.twistedTab32 0xFFFFFFFF#32) zeroState = .next zeroNext ∧
      (Instr.twistedTab32 0xFFFFFFFF#32).variant.getLsbD 1 = false := ⟨rfl, rfl⟩

theorem test_witness_ExecFrame_wide : exec (.twistedTab64 0x8000000000000000#64) zeroState = .next zeroNext := rfl

theorem test_witness_FetchWordRunsTableInstruction :
    decodeTableWord 72 0x10000000001020304 = some (.twistedTab32 0x01020304#32) := by decide

theorem test_witness_RomNeverWritten :
    run 1 (stateOn zeroRom [⟨true, true, 0b00#2, 0#64⟩]) = .next { zeroState with outHash := 0#64 } := rfl

theorem test_witness_StepKeeps :
    State.inv { zeroState with outHash := 0#64 } = true ∧
      step { zeroState with outHash := 0#64 } = .next { zeroState with outHash := 0#64 } := ⟨by decide, rfl⟩

/-- A canonical ROM that is not empty meets the invariant too. -/
theorem test_witness_StepKeeps_listed :
    State.inv (stateOn (romOf [(0x3FF, 7#32)] [] [] []) [] |>.respond 5#64) = true := by decide

theorem test_witness_CommandNeverWithdrawn : (⟨true, true, 0b11#2, 0#64⟩ : Pins).rst = true := rfl

/-- Two 32-bit commands that differ in ignored bits, from states with different registers. -/
theorem test_witness_CommandsIndependent_narrow :
    zeroState.rom = zeroNext.rom ∧
      (0xFFFFFFFF01020304#64).extractLsb' 0 32 = (0x0000000001020304#64).extractLsb' 0 32 ∧
      ((0b01#2).getLsbD 1 = true → 0xFFFFFFFF01020304#64 = 0x0000000001020304#64) := by decide

theorem test_witness_CommandsIndependent_wide :
    zeroState.rom = zeroNext.rom ∧
      (0x0102030405060708#64).extractLsb' 0 32 = (0x0102030405060708#64).extractLsb' 0 32 ∧
      ((0b11#2).getLsbD 1 = true → 0x0102030405060708#64 = 0x0102030405060708#64) := by decide

theorem test_witness_KeyOperand :
    (0b00#2).getLsbD 1 = false ∧ (0b01#2).getLsbD 1 = false ∧
      (0xFFFFFFFF80000000#64).extractLsb' 0 32 = (0x0000000080000000#64).extractLsb' 0 32 := by decide

/-- Boundaries of the character ranges: bytes 3 and 7, and the value 7 of a key's last byte. -/
theorem test_witness_CharactersInCommand :
    (3 < 4 ∧ 7 < 8) ∧ character (0xFF00000000000000#64) 7 = 0xFF#8 ∧ character (0xAB000000#32) 3 = 0xAB#8 := by decide

/-- A twisted operation's cells, from the trace of V-T32-9: a ROM that agrees on them and differs elsewhere. -/
theorem test_witness_ResultIsOneCellPerRow :
    ∀ q ∈ accesses zeroRom (.twistedTab32 0x01020304#32),
      memRead (romOf [(0x004, 1#32)] [(0x005, 9#64), (0x3FF, 7#64)] [] []) q.1 q.2 = memRead zeroRom q.1 q.2 := by decide

theorem test_witness_ReadOrderUnobservable : [0, 1, 2, 3].Perm [3, 1, 0, 2] := by decide

/-- Two states that differ in registers and in another bank, and agree on every cell of each bank named. -/
theorem test_witness_OperationsArePure :
    (∀ a, a < 0x400 → memRead zeroState.rom .st32 a = memRead (romOf [] [(0, 1#64)] [] []) .st32 a) ∧
      (∀ a, a < 0x800 → memRead zeroState.rom .st64 a = memRead (romOf [(0, 1#32)] [] [] []) .st64 a) ∧
      (∀ a, a < 0x400 → memRead zeroState.rom .tt32 a = memRead (romOf [(0, 1#32)] [] [] []) .tt32 a) ∧
      (∀ a, a < 0x800 → memRead zeroState.rom .tt64 a = memRead (romOf [(0, 1#32)] [] [] []) .tt64 a) :=
  ⟨fun _ _ => rfl, fun _ _ => rfl, fun _ _ => rfl, fun _ _ => rfl⟩

theorem test_witness_ZeroTable :
    (∀ a, a < 0x400 → memRead zeroState.rom .st32 a = 0#32) ∧ (∀ a, a < 0x400 → memRead zeroState.rom .tt32 a = 0#64) ∧
      (∀ a, a < 0x800 → memRead zeroState.rom .st64 a = 0#64) ∧
      (∀ a, a < 0x800 → memRead zeroState.rom .tt64 a = 0#128) :=
  ⟨fun _ _ => rfl, fun _ _ => rfl, fun _ _ => rfl, fun _ _ => rfl⟩

theorem test_witness_ZeroTableTwist :
    ∀ (b : BankId) (a : Nat), a < b.cells → memRead zeroState.rom b a = 0 := by
  intro b a _
  cases b <;> rfl

/-- Row constants that are not 0: the ROM filled with `TROW1`. -/
theorem test_witness_RowSelector :
    (∀ (i : Fin 4) (c : Byte), memRead (Memory.ofTable Tables.rowSelector) .st32 (i.val * 256 + c.toNat) =
        (fun j : Fin 4 => BitVec.ofNat 32 (j.val + 1) <<< 24) i) ∧
      (∀ (i : Fin 8) (c : Byte), memRead (Memory.ofTable Tables.rowSelector) .st64 (i.val * 256 + c.toNat) =
        (fun j : Fin 8 => BitVec.ofNat 64 (j.val + 1) <<< 56) i) :=
  ⟨fun i c => Bank.read_ofTable Tables.rowSelector.st32 i c, fun i c => Bank.read_ofTable Tables.rowSelector.st64 i c⟩

/-- The source's own constants (`TROW`). -/
def sourceRows : Config.Table where
  st32 i _ := BitVec.ofNat 32 i.val <<< 24
  tt32 _ _ := 0#64
  st64 i _ := BitVec.ofNat 64 i.val <<< 56
  tt64 _ _ := 0#128

theorem test_witness_RowSelector_source :
    (∀ (i : Fin 4) (c : Byte),
        memRead (Memory.ofTable sourceRows) .st32 (i.val * 256 + c.toNat) = BitVec.ofNat 32 i.val <<< 24) ∧
      (∀ (i : Fin 8) (c : Byte),
        memRead (Memory.ofTable sourceRows) .st64 (i.val * 256 + c.toNat) = BitVec.ofNat 64 i.val <<< 56) := by
  have h32 : ∀ (i : Fin 4) (c : Byte), sourceRows.st32 i c = BitVec.ofNat 32 i.val <<< 24 := fun _ _ => rfl
  have h64 : ∀ (i : Fin 8) (c : Byte), sourceRows.st64 i c = BitVec.ofNat 64 i.val <<< 56 := fun _ _ => rfl
  refine ⟨fun i c => ?_, fun i c => ?_⟩
  · rw [← h32 i c, memRead_cell, Memory.bank_st32, Memory.ofTable_st32, Bank.read_ofTable]
  · rw [← h64 i c, memRead_cell, Memory.bank_st64, Memory.ofTable_st64, Bank.read_ofTable]

/-- V-S32-12, V-S64-12 and a last byte: keys that differ in one byte position only, the first and the last. -/
theorem test_witness_SimpleSensitivity :
    (∀ i : Fin 4, i ≠ 0 → character 0x01020304#32 i.val = character 0x01020384#32 i.val) ∧
      (∀ i : Fin 4, i ≠ 3 → character 0x01020304#32 i.val = character 0x81020304#32 i.val) ∧
      (∀ i : Fin 8, i ≠ 0 → character 0x0102030405060708#64 i.val = character 0x0102030405060788#64 i.val) ∧
      (∀ i : Fin 8, i ≠ 7 → character 0x0102030405060708#64 i.val = character 0x8102030405060708#64 i.val) := by decide

/-- V-T32-12, V-T32-13: the last byte, and bytes 0 and n-2, of keys that differ there and nowhere else. -/
theorem test_witness_TwistedSensitivity_narrow :
    ((∀ i : Fin 4, i ≠ 3 → character 0x01020304#32 i.val = character 0x81020304#32 i.val) ∧
        character 0x01020304#32 3 ≠ character 0x81020304#32 3) ∧
      ((∀ i : Fin 4, i ≠ 0 → character 0x01020304#32 i.val = character 0x01020384#32 i.val) ∧
        character 0x01020304#32 0 ≠ character 0x01020384#32 0) ∧
      ((∀ i : Fin 4, i ≠ 2 → character 0x01020304#32 i.val = character 0x01820304#32 i.val) ∧
        character 0x01020304#32 2 ≠ character 0x01820304#32 2) := by decide

/-- V-T64-12, V-T64-13: as above for the 64-bit keys. -/
theorem test_witness_TwistedSensitivity_wide :
    ((∀ i : Fin 8, i ≠ 7 → character 0x0102030405060708#64 i.val = character 0x8102030405060708#64 i.val) ∧
        character 0x0102030405060708#64 7 ≠ character 0x8102030405060708#64 7) ∧
      ((∀ i : Fin 8, i ≠ 0 → character 0x0102030405060708#64 i.val = character 0x0102030405060788#64 i.val) ∧
        character 0x0102030405060708#64 0 ≠ character 0x0102030405060788#64 0) ∧
      ((∀ i : Fin 8, i ≠ 6 → character 0x0102030405060708#64 i.val = character 0x0182030405060708#64 i.val) ∧
        character 0x0102030405060708#64 6 ≠ character 0x0182030405060708#64 6) := by decide

/-- ROMs whose last row alone is listed, at its first and its last column. -/
theorem test_witness_TwistedZeroPrefix :
    (∀ a, a < 0x300 → memRead (romOf [] [(0x300, 5#64), (0x3FF, 7#64)] [] []) .tt32 a = 0#64) ∧
      (∀ a, a < 0x700 → memRead (romOf [] [] [] [(0x700, 5#128), (0x7FF, 7#128)]) .tt64 a = 0#128) := by
  refine ⟨fun a h => ?_, fun a h => ?_⟩ <;>
    · rw [memRead_eq, romOf]
      simp only [Memory.bank_tt32, Memory.bank_tt64]
      rw [Bank.read_cons_ne (by omega), Bank.read_cons_ne (by omega), Bank.read_nil]

/-- Two ROMs that differ in a dead bit of row 0 (bit 8) and in a dead bit of the last row (bit 0). -/
theorem test_witness_DeadTableBits_narrow :
    (∀ a, a < 0x300 →
      (memRead (romOf [] [(0, 0x100#64), (0x3FF, 1#64)] [] []) .tt32 a).extractLsb' 32 32 =
        (memRead zeroRom .tt32 a).extractLsb' 32 32 ∧
      (memRead (romOf [] [(0, 0x100#64), (0x3FF, 1#64)] [] []) .tt32 a).extractLsb' 0 8 =
        (memRead zeroRom .tt32 a).extractLsb' 0 8) ∧
    (∀ a, 0x300 ≤ a → a < 0x400 →
      (memRead (romOf [] [(0, 0x100#64), (0x3FF, 1#64)] [] []) .tt32 a).extractLsb' 32 32 =
        (memRead zeroRom .tt32 a).extractLsb' 32 32) := by
  refine ⟨fun a h => ?_, fun a h _ => ?_⟩
  · rw [memRead_eq, memRead_eq, romOf, zeroRom, romOf]
    simp only [Memory.bank_tt32, Bank.read_cons, Bank.read_nil]
    split
    · decide
    · rw [if_neg (by omega)]; decide
  · rw [memRead_eq, memRead_eq, romOf, zeroRom, romOf]
    simp only [Memory.bank_tt32, Bank.read_cons, Bank.read_nil]
    rw [if_neg (by omega)]
    split <;> decide

/-- The same at 128 bits. -/
theorem test_witness_DeadTableBits_wide :
    (∀ a, a < 0x700 →
      (memRead (romOf [] [] [] [(0, 0x100#128), (0x7FF, 1#128)]) .tt64 a).extractLsb' 64 64 =
        (memRead zeroRom .tt64 a).extractLsb' 64 64 ∧
      (memRead (romOf [] [] [] [(0, 0x100#128), (0x7FF, 1#128)]) .tt64 a).extractLsb' 0 8 =
        (memRead zeroRom .tt64 a).extractLsb' 0 8) ∧
    (∀ a, 0x700 ≤ a → a < 0x800 →
      (memRead (romOf [] [] [] [(0, 0x100#128), (0x7FF, 1#128)]) .tt64 a).extractLsb' 64 64 =
        (memRead zeroRom .tt64 a).extractLsb' 64 64) := by
  refine ⟨fun a h => ?_, fun a h _ => ?_⟩
  · rw [memRead_eq, memRead_eq, romOf, zeroRom, romOf]
    simp only [Memory.bank_tt64, Bank.read_cons, Bank.read_nil]
    split
    · decide
    · rw [if_neg (by omega)]; decide
  · rw [memRead_eq, memRead_eq, romOf, zeroRom, romOf]
    simp only [Memory.bank_tt64, Bank.read_cons, Bank.read_nil]
    rw [if_neg (by omega)]
    split <;> decide

theorem test_witness_IdentityTableReturnsKey :
    (stateOn (Memory.ofTable Tables.identity) []).rom = Memory.ofTable Tables.identity := rfl

theorem test_witness_FoldTableFoldsTopByte :
    (stateOn (Memory.ofTable Tables.fold) []).rom = Memory.ofTable Tables.fold := rfl

end Sys2Proof.Tests
end

section
/-! PROOFS. What one step leaves in each element of the state, and that it forgets what the registers held
(10_state.md R32, R33). -/

namespace Sys2Proof.Machine

@[simp] theorem takeInput_cons (s : State) (p : Pins) (rest : List Pins) :
    takeInput { s with inputs := p :: rest } = (p.input, { s with inputs := rest }) := rfl

/-- The step over a given input record: both registers are written with that input's response. -/
theorem step_cons (s : State) (p : Pins) (rest : List Pins) :
    step { s with inputs := p :: rest } =
      .next (State.setOutputs (response s.rom p.input).1 (response s.rom p.input).2 { s with inputs := rest }) := by
  rw [step_eq_response, takeInput_cons]

/-- `rst` = 1 presents Reset, whatever the request pins hold (30_encoding.md R75). -/
theorem Pins.input_of_rst {p : Pins} (h : p.rst = true) : p.input = .reset := by
  simp [Pins.input, h]

/-- Taking an input neither reads nor writes the output registers. -/
theorem takeInput_setOutputs (s : State) (valid : Bool) (value : BitVec 64) :
    takeInput (s.setOutputs valid value) = ((takeInput s).1, (takeInput s).2.setOutputs valid value) := by
  rcases takeInput_cases s with ⟨hnil, htake⟩ | ⟨p, rest, hcons, htake⟩
  · rw [htake, takeInput, State.setOutputs_inputs, hnil]
  · rw [htake, takeInput, State.setOutputs_inputs, hcons]
    rfl

@[simp] theorem State.setOutputs_setOutputs (s : State) (valid valid' : Bool) (value value' : BitVec 64) :
    (s.setOutputs valid value).setOutputs valid' value' = s.setOutputs valid' value' := rfl

/-- A step overwrites both registers, so it does not depend on what they held (10_state.md R33). -/
@[simp] theorem step_setOutputs (s : State) (valid : Bool) (value : BitVec 64) :
    step (s.setOutputs valid value) = step s := by
  rw [step_eq_response, step_eq_response, takeInput_setOutputs, State.setOutputs_rom, State.setOutputs_setOutputs]

/-- States with the same first step have the same runs of at least one step. -/
theorem run_succ_congr {s s' : State} (h : step s = step s') (k : Nat) : run (k + 1) s = run (k + 1) s' := by
  have hs := step_eq_response s
  rw [run_succ hs, run_succ (h.symm.trans hs)]

/-- A step with `rst` = 1 clears both registers and takes its record, whatever the request pins hold
(10_state.md R32). -/
theorem step_of_rst (s : State) {p : Pins} (h : p.rst = true) (rest : List Pins) :
    step { s with inputs := p :: rest } = .next (State.resetOutputs { s with inputs := rest }) := by
  rw [step_cons, Pins.input_of_rst h]
  rfl

end Sys2Proof.Machine

open Sys2Proof Sys2Proof.Machine

/-- Settles O16. The function is `response`; a run forgets the old registers because its first step does. -/
theorem noRegisterHistory : Obligations.NoRegisterHistory := by
  refine ⟨⟨response, fun s p rest => ⟨_, step_cons s p rest, ?rom, ?registers⟩⟩, fun k s v value => ?run⟩
  case rom => exact State.setOutputs_rom ..
  case registers => rw [State.setOutputs_outValid, State.setOutputs_outHash]
  case run => exact run_succ_congr (step_setOutputs s v value) k

/-- Settles O15. The Reset step by `step_of_rst`; the cells by reading a bank filled with its table. -/
theorem resetValues : Obligations.ResetValues := by
  refine ⟨fun s valid v k rest => ⟨_, step_of_rst s rfl rest, ?valid, ?hash, ?rom⟩, State.reset_outValid, State.reset_outHash,
    ?powerOn, ?st32, ?tt32, ?st64, ?tt64⟩
  case valid => exact State.resetOutputs_outValid _
  case hash => exact State.resetOutputs_outHash _
  case rom => exact State.resetOutputs_rom _
  case powerOn => rw [State.powerOn_rom, State.reset_rom]
  case st32 => exact fun i c => Bank.read_ofTable Config.table.st32 i c
  case tt32 => exact fun i c => Bank.read_ofTable Config.table.tt32 i c
  case st64 => exact fun i c => Bank.read_ofTable Config.table.st64 i c
  case tt64 => exact fun i c => Bank.read_ofTable Config.table.tt64 i c

end

section
/-! PROOFS. The ROM (20_memory.md): no step and no run writes it, a word address is its row and column, a key is its
characters, and a filled bank reads as its table. -/

namespace Sys2Proof.Machine

/-- Taking an input leaves the ROM as it was. -/
@[simp] theorem takeInput_rom (s : State) : (takeInput s).2.rom = s.rom := by
  rcases takeInput_cases s with ⟨-, htake⟩ | ⟨p, rest, -, htake⟩ <;> rw [htake]

/-- No step writes the ROM (20_memory.md R43). -/
theorem step_rom {s t : State} (h : step s = .next t) : t.rom = s.rom := by
  rw [step_eq_response] at h
  cases h
  rw [State.setOutputs_rom, takeInput_rom]

/-- What every step keeps, every run keeps. -/
theorem run_preserves {P : State → Prop} (keeps : ∀ {s t : State}, step s = .next t → P s → P t) {k : Nat}
    {s t : State} (h : run k s = .next t) (hs : P s) : P t := by
  induction k generalizing s with
  | zero =>
    cases h
    exact hs
  | succ k ih =>
    have hstep := step_eq_response s
    rw [run_succ hstep] at h
    exact ih h (keeps hstep hs)

/-- No run writes the ROM (20_memory.md R43). -/
theorem run_rom {k : Nat} {s t : State} (h : run k s = .next t) : t.rom = s.rom :=
  run_preserves (P := fun u => u.rom = s.rom) (fun hstep hrom => (step_rom hstep).trans hrom) h rfl

/-- A character is the key shifted down to it and masked to a byte, at every key width (20_memory.md R47). -/
theorem setWidth_character {w : Nat} (key : BitVec w) (i : Nat) :
    (character key i).setWidth w = (key >>> (8 * i)) &&& BitVec.ofNat w 0xFF := by
  apply BitVec.eq_of_getLsbD_eq
  intro j hj
  have hmask : (BitVec.ofNat w 0xFF).getLsbD j = decide (j < 8) := by
    rw [BitVec.getLsbD_ofNat, decide_eq_true hj, Bool.true_and]
    exact Nat.testBit_two_pow_sub_one 8 j
  rw [character, BitVec.getLsbD_and, hmask]
  simp [hj, Bool.and_comm]

/-- The bits above character `i`, followed by it, are the bits from it on: character 0 is least significant
(20_memory.md R47). -/
theorem extractLsb'_append_character {w : Nat} (key : BitVec w) (i len : Nat) :
    key.extractLsb' (8 * (i + 1)) len ++ character key i = key.extractLsb' (8 * i) (len + 8) :=
  BitVec.extractLsb'_append_extractLsb'_eq_extractLsb' (by omega)

/-- A word address is the row's bits above the column's (20_memory.md R41). -/
theorem cellAddress_eq_append {r : Nat} (i : BitVec r) (c : Byte) : cellAddress i.toNat c = (i ++ c).toNat := by
  rw [BitVec.toNat_append, ← Nat.shiftLeft_add_eq_or_of_lt c.isLt, Nat.shiftLeft_eq, cellAddress]

/-- A bank of `2 ^ r` rows has no hole: every address of its width is that of exactly one cell (20_memory.md R41). -/
theorem existsUnique_cellAddress {r : Nat} (a : BitVec (r + 8)) :
    ∃! q : BitVec r × Byte, cellAddress q.1.toNat q.2 = a.toNat := by
  have hsplit : a.extractLsb' 8 r ++ a.extractLsb' 0 8 = a :=
    (BitVec.extractLsb'_append_extractLsb'_eq_extractLsb' (Nat.zero_add 8).symm).trans BitVec.extractLsb'_eq_self
  have haddress : cellAddress (a.extractLsb' 8 r).toNat (a.extractLsb' 0 8) = a.toNat := by
    rw [cellAddress_eq_append, hsplit]
  refine ⟨(a.extractLsb' 8 r, a.extractLsb' 0 8), haddress, fun q hq => ?unique⟩
  case unique =>
    obtain ⟨hrow, hcolumn⟩ := cellAddress_inj.mp (hq.trans haddress.symm)
    exact Prod.ext (BitVec.eq_of_toNat_eq hrow) hcolumn

end Sys2Proof.Machine

open Sys2Proof Sys2Proof.Machine

/-- Settles O17. The run keeps the ROM because each of its steps does, and a read depends on the ROM alone. -/
theorem romNeverWritten : Obligations.RomNeverWritten := by
  intro k s t h
  have hrom := run_rom h
  exact ⟨hrom, fun b a => by rw [hrom]⟩

/-- Settles O33. The key is put together from its most significant character down. -/
theorem keyByteOrder : Obligations.KeyByteOrder := by
  refine ⟨setWidth_character, setWidth_character, fun key => ?narrow, fun key => ?wide⟩
  case narrow =>
    have htop : character key 3 = key.extractLsb' (8 * (2 + 1)) 8 := rfl
    rw [htop, extractLsb'_append_character, extractLsb'_append_character key 1, extractLsb'_append_character key 0]
    exact BitVec.extractLsb'_eq_self.symm
  case wide =>
    have htop : character key 7 = key.extractLsb' (8 * (6 + 1)) 8 := rfl
    rw [htop, extractLsb'_append_character, extractLsb'_append_character key 5, extractLsb'_append_character key 4,
      extractLsb'_append_character key 3, extractLsb'_append_character key 2, extractLsb'_append_character key 1,
      extractLsb'_append_character key 0]
    exact BitVec.extractLsb'_eq_self.symm

/-- Settles O34. Both bank sizes are instances of the addressing of a bank of `2 ^ r` rows. -/
theorem cellAddressing : Obligations.CellAddressing :=
  ⟨fun _ _ => rfl, cellAddress_eq_append, cellAddress_eq_append, existsUnique_cellAddress (r := 2),
    existsUnique_cellAddress (r := 3)⟩

/-- Settles O35. The address is that of the row and column, and the bank is the one filled with TABLE's component. -/
theorem readGivesTable : Obligations.ReadGivesTable := by
  refine fun t => ⟨fun i c => ?st32, fun i c => ?tt32, fun i c => ?st64, fun i c => ?tt64⟩
  case st32 => rw [memRead_cell, Memory.bank_st32, Memory.ofTable_st32, Bank.read_ofTable]
  case tt32 => rw [memRead_cell, Memory.bank_tt32, Memory.ofTable_tt32, Bank.read_ofTable]
  case st64 => rw [memRead_cell, Memory.bank_st64, Memory.ofTable_st64, Bank.read_ofTable]
  case tt64 => rw [memRead_cell, Memory.bank_tt64, Memory.ofTable_tt64, Bank.read_ofTable]

end

section
/-! PROOFS. The command word (30_encoding.md): where its fields stand, which words decode to one instruction, and what a
presented command runs. -/

namespace Sys2Proof

/-- The selector's value stands above the 64 bits of the key field (30_encoding.md R70). -/
theorem toNat_packCommand (v : Variant) (k : KeyField) : (packCommand v k).toNat = v.toNat * 2 ^ 64 + k.toNat := by
  rw [packCommand, BitVec.toNat_append, ← Nat.shiftLeft_add_eq_or_of_lt k.isLt, Nat.shiftLeft_eq]

/-- A slice of the command word that ends below bit 64 is that slice of the key field (30_encoding.md R70). -/
theorem extractLsb'_packCommand (v : Variant) (k : KeyField) {start len : Nat} (h : start + len ≤ 64) :
    (packCommand v k).extractLsb' start len = k.extractLsb' start len :=
  BitVec.extractLsb'_append_eq_of_add_le h

/-- Bit 65 of a command word is WIDE, the upper bit of its selector (30_encoding.md R70). -/
theorem CommandWord.getLsbD_wide (w : CommandWord) : w.getLsbD 65 = w.variant.getLsbD 1 := by
  rw [CommandWord.variant, BitVec.getLsbD_extractLsb']
  rfl

/-- The low 32 bits of a command word are those of its key field (30_encoding.md R72). -/
theorem CommandWord.extractLsb'_keyField (w : CommandWord) : w.keyField.extractLsb' 0 32 = w.extractLsb' 0 32 :=
  BitVec.extractLsb'_extractLsb'_of_le (by decide)

/-- The decoded operation has the selector it was decoded from (30_encoding.md R71). -/
@[simp] theorem variant_decodeFields (v : Variant) (k : KeyField) : (decodeFields v k).variant = v := by
  rcases variant_cases v with rfl | rfl | rfl | rfl <;> rfl

/-- Under one selector, two key fields decode to one instruction exactly when the bits in use agree
(30_encoding.md R72). -/
theorem decodeFields_key_eq_iff (v : Variant) (k k' : KeyField) :
    decodeFields v k = decodeFields v k' ↔
      if v.getLsbD 1 then k = k' else k.extractLsb' 0 32 = k'.extractLsb' 0 32 := by
  rcases variant_cases v with rfl | rfl | rfl | rfl
  · rw [decodeFields_simpleTab32, decodeFields_simpleTab32, Instr.simpleTab32.injEq]
    rfl
  · rw [decodeFields_twistedTab32, decodeFields_twistedTab32, Instr.twistedTab32.injEq]
    rfl
  · rw [decodeFields_simpleTab64, decodeFields_simpleTab64, Instr.simpleTab64.injEq]
    rfl
  · rw [decodeFields_twistedTab64, decodeFields_twistedTab64, Instr.twistedTab64.injEq]
    rfl

/-- Two words decode to one instruction exactly when their selectors and the key bits in use agree
(30_encoding.md R74). -/
theorem decode_eq_iff (w w' : CommandWord) :
    decode w = decode w' ↔ w.variant = w'.variant ∧
      if w.variant.getLsbD 1 then w.keyField = w'.keyField
      else w.keyField.extractLsb' 0 32 = w'.keyField.extractLsb' 0 32 := by
  rw [decode, decode]
  constructor
  · intro h
    have hv : w.variant = w'.variant := by
      rw [← variant_decodeFields w.variant w.keyField, h, variant_decodeFields]
    rw [← hv] at h
    exact ⟨hv, (decodeFields_key_eq_iff ..).mp h⟩
  · rintro ⟨hv, hk⟩
    rw [← hv]
    exact (decodeFields_key_eq_iff ..).mpr hk

/-- No 66-bit word is rejected (30_encoding.md R74). -/
theorem decodeRaw_toNat (w : CommandWord) : decodeRaw w.toNat = .ok (decode w) := by
  rcases decodeRaw_cases w.toNat with ⟨-, hok⟩ | ⟨hwide, -⟩
  · rw [hok, BitVec.ofNat_toNat, BitVec.setWidth_eq]
  · exact absurd w.isLt (Nat.not_lt.mpr hwide)

open Laws.RowMatch

/-- Every word meets, under the mask, the match value of the operation it decodes to (30_encoding.md R71). -/
theorem and_mask_eq_pattern_decode (w : CommandWord) : w &&& mask = pattern (decode w) := by
  calc w &&& mask
    _ = packCommand w.variant w.keyField &&& mask := by rw [packCommand_fields]
    _ = packCommand w.variant 0#64 := masked_packCommand ..
    _ = packCommand (decode w).variant 0#64 := by rw [decode, variant_decodeFields]
    _ = pattern (decode w) := variant_pattern _

/-- The four match values tell the four operations apart (30_encoding.md R71). -/
theorem pattern_eq_iff (i : Instr) :
    (pattern i = 0x00000000000000000#66 ↔ ∃ key, i = .simpleTab32 key) ∧
    (pattern i = 0x10000000000000000#66 ↔ ∃ key, i = .twistedTab32 key) ∧
    (pattern i = 0x20000000000000000#66 ↔ ∃ key, i = .simpleTab64 key) ∧
    (pattern i = 0x30000000000000000#66 ↔ ∃ key, i = .twistedTab64 key) := by
  cases i with
  | simpleTab32 _ => simp [pattern]
  | twistedTab32 _ => simp [pattern]
  | simpleTab64 _ => simp [pattern]
  | twistedTab64 _ => simp [pattern]

end Sys2Proof

namespace Sys2Proof.Machine

/-- A character inside the lower part of a key is that character of the whole key. -/
theorem character_extractLsb' {w n : Nat} (key : BitVec w) {i : Nat} (h : 8 * i + 8 ≤ n) :
    character (key.extractLsb' 0 n) i = character key i :=
  BitVec.extractLsb'_extractLsb'_of_le h

/-- `rst` = 0 and `req_valid` = 1 present the command of the two request pins (30_encoding.md R75). -/
@[simp] theorem Pins.input_command (v : Variant) (k : KeyField) :
    Pins.input ⟨false, true, v, k⟩ = .cmd (packCommand v k) := rfl

/-- `rst` = 0 and `req_valid` = 0 present Idle (30_encoding.md R75). -/
@[simp] theorem Pins.input_idle (v : Variant) (k : KeyField) : Pins.input ⟨false, false, v, k⟩ = .idle := rfl

/-- A step whose pins present a command runs the decoded instruction on the state with that input taken. -/
theorem step_command (s : State) (v : Variant) (k : KeyField) (rest : List Pins) :
    step { s with inputs := ⟨false, true, v, k⟩ :: rest } = exec (decode (packCommand v k)) { s with inputs := rest } := by
  rw [step, takeInput_cons, Pins.input_command]

/-! Each operation responds with its own block's hash over its own bank (30_encoding.md R71). -/

theorem exec_simpleTab32 (key : BitVec 32) (s : State) :
    exec (.simpleTab32 key) s = .next (s.respond ((simpleTab32 s.rom.st32 key).setWidth 64)) := rfl
theorem exec_twistedTab32 (key : BitVec 32) (s : State) :
    exec (.twistedTab32 key) s = .next (s.respond ((twistedTab32 s.rom.tt32 key).setWidth 64)) := rfl
theorem exec_simpleTab64 (key : BitVec 64) (s : State) :
    exec (.simpleTab64 key) s = .next (s.respond (simpleTab64 s.rom.st64 key)) := rfl
theorem exec_twistedTab64 (key : BitVec 64) (s : State) :
    exec (.twistedTab64 key) s = .next (s.respond (twistedTab64 s.rom.tt64 key)) := rfl

end Sys2Proof.Machine

open Sys2Proof Sys2Proof.Machine

/-- Settles O25. The two bits are bit `i` of a packed word at 65 and 64. -/
theorem commandWordLayout : Obligations.CommandWordLayout :=
  fun v k => ⟨toNat_packCommand v k, getLsbD_packCommand v k 65, getLsbD_packCommand v k 64, packCommand_variant v k,
    packCommand_keyField v k⟩

/-- Settles O26. Under the mask a word is the match value of what it decodes to, and the match values differ. -/
theorem opcodeMap : Obligations.OpcodeMap := by
  refine ⟨fun w => ?rows, fun s x y => ⟨exec_simpleTab32 x s, exec_twistedTab32 x s, exec_simpleTab64 y s,
    exec_twistedTab64 y s⟩⟩
  case rows =>
    have hmask : w &&& 0x30000000000000000#66 = Laws.RowMatch.pattern (decode w) := and_mask_eq_pattern_decode w
    rw [hmask]
    exact pattern_eq_iff (decode w)

/-- Settles O27. A presented command runs its decoding, and a 32-bit decoding holds the low 32 key bits alone. -/
theorem keyOperand : Obligations.KeyOperand := by
  refine ⟨fun k => ⟨decode_packCommand .., decode_packCommand .., decode_packCommand .., decode_packCommand ..⟩,
    fun s v k k' rest hnarrow hkey => ?ignored⟩
  case ignored =>
    have hdecode : decodeFields v k = decodeFields v k' := by
      rw [decodeFields_key_eq_iff, hnarrow]
      exact hkey
    rw [step_command, step_command, decode_packCommand, decode_packCommand, hdecode]

/-- Settles O28. Each character lies inside the key field, for a 32-bit key inside its lower half. -/
theorem charactersInCommand : Obligations.CharactersInCommand := by
  refine fun v k i => ⟨fun hi => ?wide, fun hi => ?narrow⟩
  case wide => exact (extractLsb'_packCommand v k (by omega)).symm
  case narrow =>
    rw [character_extractLsb' k (by omega), extractLsb'_packCommand v k (by omega), character]

/-- Settles O29. No word is rejected, every decoding executes, and `decode_eq_iff` says which words share one. -/
theorem everyWordLegal : Obligations.EveryWordLegal := by
  refine ⟨fun w s => ⟨decode w, _, decodeRaw_toNat w, rfl, exec_decode w s⟩, fun w w' => ?sameInstr⟩
  case sameInstr =>
    rw [decode_eq_iff, CommandWord.getLsbD_wide, CommandWord.extractLsb'_keyField, CommandWord.extractLsb'_keyField]

/-- Settles O12. The pins' three cases, and the presented word's fields are the request pins. -/
theorem pinsPresentOneInput : Obligations.PinsPresentOneInput :=
  fun _ v k => ⟨Pins.input_of_rst rfl, Pins.input_idle v k, Pins.input_command v k, packCommand_variant v k,
    packCommand_keyField v k⟩

end

section
/-! PROOFS. The simple family (40_simple.md): a hash as the exclusive or of one value per row, which cells of its bank an
operation can see, banks of zeros, and keys that differ in one character. -/

namespace Sys2Proof.Machine

variable {c w rows : Nat}

/-- Row 0 begins at address 0. -/
theorem cellAddress_zero (x : Byte) : cellAddress 0 x = x.toNat := by
  rw [cellAddress, Nat.zero_mul, Nat.zero_add]

/-- SimpleTab32 from the value read in each row. -/
theorem simpleTab32_of_cells {bank : Bank 32} {key : BitVec 32} {r : Fin 4 → BitVec 32}
    (h : ∀ i : Fin 4, bank.read (cellAddress i (character key i)) = r i) :
    simpleTab32 bank key = r 0 ^^^ r 1 ^^^ r 2 ^^^ r 3 := by
  rw [simpleTab32_cells, ← h 0, ← h 1, ← h 2, ← h 3]
  rfl

/-- SimpleTab64 from the value read in each row. -/
theorem simpleTab64_of_cells {bank : Bank 64} {key : BitVec 64} {r : Fin 8 → BitVec 64}
    (h : ∀ i : Fin 8, bank.read (cellAddress i (character key i)) = r i) :
    simpleTab64 bank key = r 0 ^^^ r 1 ^^^ r 2 ^^^ r 3 ^^^ r 4 ^^^ r 5 ^^^ r 6 ^^^ r 7 := by
  rw [simpleTab64_cells, ← h 0, ← h 1, ← h 2, ← h 3, ← h 4, ← h 5, ← h 6, ← h 7]
  rfl

/-! ### What an operation answers, from the value of its block -/

theorem exec_simpleTab32_of_hash {s : State} {key v : BitVec 32} (h : simpleTab32 s.rom.st32 key = v) :
    exec (.simpleTab32 key) s = .next { s with outValid := true, outHash := v.setWidth 64 } :=
  h ▸ exec_simpleTab32 key s

theorem exec_twistedTab32_of_hash {s : State} {key v : BitVec 32} (h : twistedTab32 s.rom.tt32 key = v) :
    exec (.twistedTab32 key) s = .next { s with outValid := true, outHash := v.setWidth 64 } :=
  h ▸ exec_twistedTab32 key s

theorem exec_simpleTab64_of_hash {s : State} {key v : BitVec 64} (h : simpleTab64 s.rom.st64 key = v) :
    exec (.simpleTab64 key) s = .next { s with outValid := true, outHash := v } :=
  h ▸ exec_simpleTab64 key s

theorem exec_twistedTab64_of_hash {s : State} {key v : BitVec 64} (h : twistedTab64 s.rom.tt64 key = v) :
    exec (.twistedTab64 key) s = .next { s with outValid := true, outHash := v } :=
  h ▸ exec_twistedTab64 key s

/-! ### Which cells an operation can see (40_simple.md R92, 41_twisted.md R112) -/

/-- Banks that agree on the cells of rows 0 to `n - 1` accumulate the same value over those rows. -/
theorem xorRows_congr_bank {n : Nat} {bank bank' : Bank c} (h : ∀ a, a < n * 256 → bank.read a = bank'.read a)
    (key : BitVec w) (start : BitVec c) :
    xorRows bank key (List.range' 0 n) start = xorRows bank' key (List.range' 0 n) start := by
  refine xorRows_congr (fun i hi => h _ (cellAddress_lt ?_ _)) start
  simpa using hi

theorem simpleHash_congr_bank {bank bank' : Bank w} (h : ∀ a, a < rows * 256 → bank.read a = bank'.read a)
    (key : BitVec w) : simpleHash rows bank key = simpleHash rows bank' key :=
  xorRows_congr_bank h key 0#w

theorem twistedPrefix_congr_bank {bank bank' : Bank c} (h : ∀ a, a < rows * 256 → bank.read a = bank'.read a)
    (key : BitVec w) : twistedPrefix rows bank key = twistedPrefix rows bank' key :=
  xorRows_congr_bank (fun a ha => h a (ha.trans_le (Nat.mul_le_mul_right 256 (Nat.sub_le rows 1)))) key 0#c

/-- The last row is read inside the bank too, whatever the twisted character. -/
theorem twistedHash_congr_bank {bank bank' : Bank c} (hrows : 0 < rows)
    (h : ∀ a, a < rows * 256 → bank.read a = bank'.read a) (key : BitVec w) :
    twistedHash rows bank key = twistedHash rows bank' key := by
  have hpre := twistedPrefix_congr_bank h key
  have hlast (x : Byte) : bank.read (cellAddress (rows - 1) x) = bank'.read (cellAddress (rows - 1) x) :=
    h _ (cellAddress_lt (by omega) x)
  rw [twistedHash, twistedHash, twistedAccumulator, twistedAccumulator, twistedCharacter, twistedCharacter, hpre, hlast]

/-! ### Banks of zeros (40_simple.md R94): such a bank reads as the empty one -/

@[simp] theorem xorRows_empty (key : BitVec w) (is : List Nat) (h : BitVec c) :
    xorRows ([] : Bank c) key is h = h := by
  induction is generalizing h with
  | nil => rfl
  | cons i rest ih => rw [xorRows_cons, ih, Bank.read_nil, BitVec.xor_zero]

theorem simpleHash_of_zero {bank : Bank w} (h : ∀ a, a < rows * 256 → bank.read a = 0#w) (key : BitVec w) :
    simpleHash rows bank key = 0#w :=
  (simpleHash_congr_bank (bank' := []) h key).trans (xorRows_empty ..)

theorem twistedHash_of_zero {bank : Bank c} (hrows : 0 < rows) (h : ∀ a, a < rows * 256 → bank.read a = 0#c)
    (key : BitVec w) : twistedHash rows bank key = 0#w := by
  rw [twistedHash_congr_bank (bank' := []) hrows h, twistedHash, twistedAccumulator, twistedPrefix, xorRows_empty,
    Bank.read_nil, BitVec.xor_zero, upperHalf, BitVec.zero_ushiftRight, BitVec.setWidth_zero]

/-! ### Keys that differ in one character (40_simple.md R96) -/

/-- The first row's cell is one term of the accumulation. -/
theorem xorRows_cons_zero (bank : Bank c) (key : BitVec w) (i : Nat) (rest : List Nat) :
    xorRows bank key (i :: rest) 0#c = bank.read (cellAddress i (character key i)) ^^^ xorRows bank key rest 0#c := by
  rw [xorRows_cons, xorRows_start, BitVec.zero_xor]

/-- Over distinct rows, keys that differ in the character of row `j` alone accumulate values that differ by the two cells
of row `j`. -/
theorem xorRows_xor_xorRows {bank : Bank c} {x y : BitVec w} {j : Nat} {is : List Nat} (hnodup : is.Nodup) (hj : j ∈ is)
    (h : ∀ i ∈ is, i ≠ j → character x i = character y i) :
    xorRows bank x is 0#c ^^^ xorRows bank y is 0#c =
      bank.read (cellAddress j (character x j)) ^^^ bank.read (cellAddress j (character y j)) := by
  induction is with
  | nil => cases hj
  | cons i rest ih =>
    obtain ⟨hi, hrest⟩ := List.nodup_cons.mp hnodup
    have hregroup (a b p q : BitVec c) : (a ^^^ p) ^^^ (b ^^^ q) = (a ^^^ b) ^^^ (p ^^^ q) := by ac_rfl
    rw [xorRows_cons_zero, xorRows_cons_zero, hregroup]
    by_cases hij : i = j
    · subst hij
      have htail : xorRows bank x rest 0#c = xorRows bank y rest 0#c := by
        refine xorRows_congr (fun k hk => ?_) _
        rw [h k (List.mem_cons_of_mem _ hk) (ne_of_mem_of_not_mem hk hi)]
      rw [htail, BitVec.xor_self, BitVec.xor_zero]
    · have hjrest : j ∈ rest := List.mem_of_ne_of_mem (Ne.symm hij) hj
      rw [h i List.mem_cons_self hij, BitVec.xor_self, BitVec.zero_xor]
      exact ih hrest hjrest fun k hk => h k (List.mem_cons_of_mem _ hk)

/-- Changing one character changes one term of a simple hash, and so the hash exactly when the two cells differ. -/
theorem simpleHash_sensitivity (bank : Bank w) {x y : BitVec w} {j : Fin rows}
    (h : ∀ i : Fin rows, i ≠ j → character x i.val = character y i.val) :
    simpleHash rows bank x ^^^ simpleHash rows bank y =
        bank.read (cellAddress j (character x j)) ^^^ bank.read (cellAddress j (character y j)) ∧
      (simpleHash rows bank x = simpleHash rows bank y ↔
        bank.read (cellAddress j (character x j)) = bank.read (cellAddress j (character y j))) := by
  have hdiff : simpleHash rows bank x ^^^ simpleHash rows bank y =
      bank.read (cellAddress j (character x j)) ^^^ bank.read (cellAddress j (character y j)) := by
    refine xorRows_xor_xorRows List.nodup_range' (by simp) fun i hi hij => ?_
    have hlt : i < rows := by simpa using hi
    exact h ⟨i, hlt⟩ fun heq => hij (congrArg Fin.val heq)
  refine ⟨hdiff, ?_⟩
  rw [← BitVec.xor_eq_zero_iff, hdiff, BitVec.xor_eq_zero_iff]

end Sys2Proof.Machine

open Sys2Proof Sys2Proof.Machine

/-- Settles O1. The decoder's row, the block's four cells, and the worked example from TMUL's four cells. -/
theorem simpleTab32Result : Obligations.SimpleTab32Result := by
  refine ⟨fun k => ?decoding, fun key s => exec_simpleTab32_of_hash ?cells,
    fun s => exec_simpleTab32_of_hash (v := 0x0C073EC0#32) ?worked⟩
  case decoding => rw [decode_packCommand, decodeFields_simpleTab32]
  case cells =>
    rw [simpleTab32_cells, cellAddress_zero]
    rfl
  case worked => exact (simpleTab32_of_cells fun i => Bank.read_ofTable Tables.multiples.st32 i _).trans (by decide)

/-- Settles O2. The decoder's row, the block's eight cells, and the worked example from TMUL's eight cells. -/
theorem simpleTab64Result : Obligations.SimpleTab64Result := by
  refine ⟨fun k => ?decoding, fun key s => exec_simpleTab64_of_hash ?cells, fun s => exec_simpleTab64_of_hash ?worked⟩
  case decoding => rw [decode_packCommand, decodeFields_simpleTab64]
  case cells =>
    rw [simpleTab64_cells, cellAddress_zero]
    rfl
  case worked => exact (simpleTab64_of_cells fun i => Bank.read_ofTable Tables.multiples.st64 i _).trans (by decide)

/-- Settles O39. Each block gives one value over two banks that agree on the operation's own cells. -/
theorem operationsArePure : Obligations.OperationsArePure := by
  refine ⟨fun key s s' h => ⟨_, exec_simpleTab32_of_hash ?simple32, exec_simpleTab32_of_hash rfl⟩,
    fun key s s' h => ⟨_, exec_simpleTab64_of_hash ?simple64, exec_simpleTab64_of_hash rfl⟩,
    fun key s s' h => ⟨_, exec_twistedTab32_of_hash ?twisted32, exec_twistedTab32_of_hash rfl⟩,
    fun key s s' h => ⟨_, exec_twistedTab64_of_hash ?twisted64, exec_twistedTab64_of_hash rfl⟩⟩
  case simple32 => exact simpleHash_congr_bank h key
  case simple64 => exact simpleHash_congr_bank h key
  case twisted32 => exact twistedHash_congr_bank (by decide) h key
  case twisted64 => exact twistedHash_congr_bank (by decide) h key

/-- Settles O40. Over a bank of zeros each block gives 0, and 0 on the response port is 0. -/
theorem zeroTable : Obligations.ZeroTable := by
  refine ⟨fun s h key => exec_simpleTab32_of_hash (v := 0#32) ?simple32,
    fun s h key => exec_twistedTab32_of_hash (v := 0#32) ?twisted32,
    fun s h key => exec_simpleTab64_of_hash ?simple64, fun s h key => exec_twistedTab64_of_hash ?twisted64⟩
  case simple32 => exact simpleHash_of_zero h key
  case twisted32 => exact twistedHash_of_zero (by decide) h key
  case simple64 => exact simpleHash_of_zero h key
  case twisted64 => exact twistedHash_of_zero (by decide) h key

/-- Settles O41. The hash is the exclusive or of the row constants, and the source's own constants cancel. -/
theorem rowSelector : Obligations.RowSelector := by
  refine ⟨fun s r h key => exec_simpleTab32_of_hash ?narrow, fun s r h key => exec_simpleTab64_of_hash ?wide,
    fun s h key => exec_simpleTab32_of_hash (v := 0#32) ?source32, fun s h key => exec_simpleTab64_of_hash ?source64⟩
  case narrow => exact simpleTab32_of_cells fun i => h i _
  case wide => exact simpleTab64_of_cells fun i => h i _
  case source32 => exact (simpleTab32_of_cells fun i => h i _).trans (by decide)
  case source64 => exact (simpleTab64_of_cells fun i => h i _).trans (by decide)

/-- Settles O42. Both blocks are the simple hash, at four and at eight rows. -/
theorem simpleSensitivity : Obligations.SimpleSensitivity :=
  ⟨fun m _ _ _ h => simpleHash_sensitivity m.st32 h, fun m _ _ _ h => simpleHash_sensitivity m.st64 h⟩

end

section
/-! PROOFS. The twisted family (41_twisted.md): a hash from its partial accumulator (the one before the last row) and
from a table, which bits of a cell a hash can see, rows of zeros, and keys that differ in one character. -/

namespace Sys2Proof.Machine

variable {c w rows : Nat}

/-! ### A hash from its partial accumulator (41_twisted.md R110 steps 3 to 5) -/

/-- Once the accumulator before the last row is known, one cell more decides the hash. -/
theorem twistedHash_of_prefix {bank : Bank c} {key : BitVec w} {h : BitVec c}
    (hprefix : twistedPrefix rows bank key = h) :
    twistedHash rows bank key =
      (h ^^^ bank.read (cellAddress (rows - 1) (character key (rows - 1) ^^^ lowByte h))).extractLsb' w w := by
  rw [twistedHash, twistedAccumulator, twistedCharacter, hprefix, upperHalf_eq_extract]

/-- The four-row hash over a bank that reads as a table. -/
theorem twistedTab32_of_table {bank : Bank 64} {t : Fin 4 → Byte → BitVec 64}
    (ht : ∀ (i : Fin 4) (x : Byte), bank.read (cellAddress i x) = t i x) {key : BitVec 32} {h : BitVec 64}
    (hprefix : t 0 (character key 0) ^^^ t 1 (character key 1) ^^^ t 2 (character key 2) = h) :
    twistedTab32 bank key = (h ^^^ t 3 (character key 3 ^^^ lowByte h)).extractLsb' 32 32 := by
  rw [← ht 0, ← ht 1, ← ht 2] at hprefix
  rw [← ht 3]
  exact twistedHash_of_prefix ((twistedPrefix_four bank key).trans hprefix)

/-- The eight-row hash over a bank that reads as a table. -/
theorem twistedTab64_of_table {bank : Bank 128} {t : Fin 8 → Byte → BitVec 128}
    (ht : ∀ (i : Fin 8) (x : Byte), bank.read (cellAddress i x) = t i x) {key : BitVec 64} {h : BitVec 128}
    (hprefix : t 0 (character key 0) ^^^ t 1 (character key 1) ^^^ t 2 (character key 2) ^^^ t 3 (character key 3) ^^^
      t 4 (character key 4) ^^^ t 5 (character key 5) ^^^ t 6 (character key 6) = h) :
    twistedTab64 bank key = (h ^^^ t 7 (character key 7 ^^^ lowByte h)).extractLsb' 64 64 := by
  rw [← ht 0, ← ht 1, ← ht 2, ← ht 3, ← ht 4, ← ht 5, ← ht 6] at hprefix
  rw [← ht 7]
  exact twistedHash_of_prefix ((twistedPrefix_eight bank key).trans hprefix)

/-! ### The high and the low word (41_twisted.md R114, R118) -/

/-- The low byte of an accumulator is that of its low word. -/
theorem lowByte_extractLsb' (hw : 8 ≤ w) (h : BitVec c) : lowByte (h.extractLsb' 0 w) = lowByte h :=
  BitVec.extractLsb'_extractLsb'_of_le hw

/-- The low word of the partial accumulator addresses the last row, and its high word enters the hash. -/
theorem twistedHash_of_words (hw : 8 ≤ w) {bank : Bank c} {key lo hi : BitVec w}
    (hlo : (twistedPrefix rows bank key).extractLsb' 0 w = lo)
    (hhi : (twistedPrefix rows bank key).extractLsb' w w = hi) :
    twistedHash rows bank key =
      hi ^^^ (bank.read (cellAddress (rows - 1) (character key (rows - 1) ^^^ lowByte lo))).extractLsb' w w := by
  rw [twistedHash_of_prefix rfl, BitVec.extractLsb'_xor, hhi, ← hlo, lowByte_extractLsb' hw]

/-- Banks that agree in what `f` keeps of each cell of rows 0 to `n - 1` agree in what `f` keeps of the accumulation. -/
theorem map_xorRows_congr_bank {d n : Nat} {f : BitVec c → BitVec d} (hf : ∀ x y, f (x ^^^ y) = f x ^^^ f y)
    {bank bank' : Bank c} (h : ∀ a, a < n * 256 → f (bank.read a) = f (bank'.read a)) (key : BitVec w)
    (start : BitVec c) :
    f (xorRows bank key (List.range' 0 n) start) = f (xorRows bank' key (List.range' 0 n) start) := by
  rw [xorRows_map f hf, xorRows_map f hf]
  refine List.foldl_ext _ _ _ fun acc i hi => ?_
  have hrow : i < n := by simpa using hi
  rw [h _ (cellAddress_lt hrow _)]

/-- A hash sees the upper half and the low byte of a cell before the last row, and the upper half of a cell of the last
row. -/
theorem twistedHash_congr_live {bank bank' : Bank c} (hrows : 0 < rows)
    (hprefix : ∀ a, a < (rows - 1) * 256 →
      (bank.read a).extractLsb' w w = (bank'.read a).extractLsb' w w ∧ lowByte (bank.read a) = lowByte (bank'.read a))
    (hlast : ∀ a, (rows - 1) * 256 ≤ a → a < rows * 256 →
      (bank.read a).extractLsb' w w = (bank'.read a).extractLsb' w w)
    (key : BitVec w) : twistedHash rows bank key = twistedHash rows bank' key := by
  have hupper : (twistedPrefix rows bank key).extractLsb' w w = (twistedPrefix rows bank' key).extractLsb' w w :=
    map_xorRows_congr_bank (fun _ _ => BitVec.extractLsb'_xor) (fun a ha => (hprefix a ha).1) key 0#c
  have hlow : lowByte (twistedPrefix rows bank key) = lowByte (twistedPrefix rows bank' key) :=
    map_xorRows_congr_bank lowByte_xor (fun a ha => (hprefix a ha).2) key 0#c
  have hcell (x : Byte) : (bank.read (cellAddress (rows - 1) x)).extractLsb' w w =
      (bank'.read (cellAddress (rows - 1) x)).extractLsb' w w :=
    hlast _ (Nat.le_add_right ..) (cellAddress_lt (Nat.sub_one_lt_of_lt hrows) x)
  rw [twistedHash_of_prefix rfl, twistedHash_of_prefix rfl, BitVec.extractLsb'_xor, BitVec.extractLsb'_xor, hupper,
    hlow, hcell]

/-! ### Rows of zeros before the last (41_twisted.md R115, R116) -/

theorem twistedPrefix_of_zero {bank : Bank c} (h : ∀ a, a < (rows - 1) * 256 → bank.read a = 0#c) (key : BitVec w) :
    twistedPrefix rows bank key = 0#c :=
  (xorRows_congr_bank (bank' := []) h key 0#c).trans (xorRows_empty ..)

/-- With a partial accumulator of 0 the twist is the identity. -/
theorem twistedCharacter_of_prefix_zero {bank : Bank c} {key : BitVec w} (h : twistedPrefix rows bank key = 0#c) :
    twistedCharacter rows bank key = character key (rows - 1) := by
  rw [twistedCharacter, h, lowByte, BitVec.extractLsb'_zero, BitVec.xor_zero]

/-- With a partial accumulator of 0 the hash is the upper half of the last row's cell at the key's last byte. -/
theorem twistedHash_of_prefix_zero {bank : Bank c} {key : BitVec w} (h : twistedPrefix rows bank key = 0#c) :
    twistedHash rows bank key =
      (bank.read (cellAddress (rows - 1) (character key (rows - 1)))).extractLsb' w w := by
  rw [twistedHash, twistedAccumulator, twistedCharacter_of_prefix_zero h, h, BitVec.zero_xor, upperHalf_eq_extract]

/-! ### Keys that differ in one character (41_twisted.md R117) -/

/-- Twisted characters differ by the last bytes of the keys and by the low byte of the partial accumulators. -/
theorem twistedCharacter_xor (bank : Bank c) (x y : BitVec w) :
    twistedCharacter rows bank x ^^^ twistedCharacter rows bank y =
      (character x (rows - 1) ^^^ character y (rows - 1)) ^^^
        lowByte (twistedPrefix rows bank x ^^^ twistedPrefix rows bank y) := by
  rw [twistedCharacter, twistedCharacter, lowByte_xor]
  ac_rfl

/-- Keys with one partial accumulator hash to values that differ by the upper half of the two cells of the last row. -/
theorem twistedHash_xor_of_prefix_eq {bank : Bank c} {x y : BitVec w}
    (h : twistedPrefix rows bank x = twistedPrefix rows bank y) :
    twistedHash rows bank x ^^^ twistedHash rows bank y =
      (bank.read (cellAddress (rows - 1) (twistedCharacter rows bank x)) ^^^
        bank.read (cellAddress (rows - 1) (twistedCharacter rows bank y))).extractLsb' w w := by
  have hcancel (p a b : BitVec c) : (p ^^^ a) ^^^ (p ^^^ b) = a ^^^ b := by
    rw [BitVec.xor_comm p a, BitVec.xor_assoc, ← BitVec.xor_assoc p p b, BitVec.xor_self, BitVec.zero_xor]
  rw [twistedHash, twistedHash, ← upperHalf_xor, twistedAccumulator, twistedAccumulator, h, hcancel,
    upperHalf_eq_extract]

section OneCharacter

variable {x y : BitVec w} {j : Fin rows} (h : ∀ i : Fin rows, i ≠ j → character x i.val = character y i.val)
include h

/-- A row before the last that is not row `j` is read at one character for both keys. -/
theorem character_eq_of_mem_prefix {i : Nat} (hi : i ∈ List.range' 0 (rows - 1)) (hij : i ≠ j.val) :
    character x i = character y i := by
  have hlt : i < rows - 1 := by simpa using hi
  exact h ⟨i, by omega⟩ fun heq => hij (congrArg Fin.val heq)

/-- The last byte does not enter the partial accumulator. -/
theorem twistedPrefix_eq_of_last (hj : j.val = rows - 1) (bank : Bank c) :
    twistedPrefix rows bank x = twistedPrefix rows bank y := by
  refine xorRows_congr (fun i hi => ?_) 0#c
  have hlt : i < rows - 1 := by simpa using hi
  rw [character_eq_of_mem_prefix h hi (by omega)]

/-- A changed last byte moves the last lookup alone. -/
theorem twisted_sensitivity_last (hne : character x j.val ≠ character y j.val) (hj : j.val = rows - 1) (bank : Bank c) :
    twistedPrefix rows bank x = twistedPrefix rows bank y ∧
      twistedCharacter rows bank x ^^^ twistedCharacter rows bank y =
        character x (rows - 1) ^^^ character y (rows - 1) ∧
      twistedCharacter rows bank x ≠ twistedCharacter rows bank y ∧
      twistedHash rows bank x ^^^ twistedHash rows bank y =
        (bank.read (cellAddress (rows - 1) (twistedCharacter rows bank x)) ^^^
          bank.read (cellAddress (rows - 1) (twistedCharacter rows bank y))).extractLsb' w w := by
  have hprefix := twistedPrefix_eq_of_last h hj bank
  have hchar : twistedCharacter rows bank x ^^^ twistedCharacter rows bank y =
      character x (rows - 1) ^^^ character y (rows - 1) := by
    rw [twistedCharacter_xor, hprefix, BitVec.xor_self, lowByte, BitVec.extractLsb'_zero, BitVec.xor_zero]
  refine ⟨hprefix, hchar, fun heq => hne ?_, twistedHash_xor_of_prefix_eq hprefix⟩
  rwa [← BitVec.xor_eq_zero_iff, hchar, BitVec.xor_eq_zero_iff, ← hj] at heq

/-- A changed earlier byte moves the twisted character by the low byte of the two cells of its row. -/
theorem twisted_sensitivity_earlier (hj : j.val < rows - 1) (bank : Bank c) :
    twistedCharacter rows bank x ^^^ twistedCharacter rows bank y =
        lowByte (bank.read (cellAddress j (character x j)) ^^^ bank.read (cellAddress j (character y j))) ∧
      (twistedCharacter rows bank x ≠ twistedCharacter rows bank y ↔
        lowByte (bank.read (cellAddress j (character x j))) ≠ lowByte (bank.read (cellAddress j (character y j)))) := by
  have hprefix : twistedPrefix rows bank x ^^^ twistedPrefix rows bank y =
      bank.read (cellAddress j (character x j)) ^^^ bank.read (cellAddress j (character y j)) :=
    xorRows_xor_xorRows List.nodup_range' (by simpa using hj) fun _ => character_eq_of_mem_prefix h
  have hlast : character x (rows - 1) = character y (rows - 1) :=
    h ⟨rows - 1, by omega⟩ fun heq => hj.ne (congrArg Fin.val heq).symm
  have hchar : twistedCharacter rows bank x ^^^ twistedCharacter rows bank y =
      lowByte (bank.read (cellAddress j (character x j)) ^^^ bank.read (cellAddress j (character y j))) := by
    rw [twistedCharacter_xor, hprefix, hlast, BitVec.xor_self, BitVec.zero_xor]
  refine ⟨hchar, not_congr ?_⟩
  rw [← BitVec.xor_eq_zero_iff, hchar, lowByte_xor, BitVec.xor_eq_zero_iff]

end OneCharacter

end Sys2Proof.Machine

open Sys2Proof Sys2Proof.Machine

/-- Settles O3. The decoder's row, the block's three plain cells and its twisted one, and the worked example from TMUL. -/
theorem twistedTab32Result : Obligations.TwistedTab32Result := by
  refine ⟨fun k => ?decoding, fun key s => exec_twistedTab32_of_hash ?cells,
    fun s => exec_twistedTab32_of_hash (v := 0xF19033B2#32) ?worked⟩
  case decoding => rw [decode_packCommand, decodeFields_twistedTab32]
  case cells =>
    have hprefix := twistedPrefix_four s.rom.tt32 key
    rw [cellAddress_zero] at hprefix
    exact twistedHash_of_prefix hprefix
  case worked => exact (twistedTab32_of_table (Bank.read_ofTable Tables.multiples.tt32) rfl).trans (by decide)

/-- Settles O4. The decoder's row, the block's seven plain cells and its twisted one, and the worked example from TMUL. -/
theorem twistedTab64Result : Obligations.TwistedTab64Result := by
  refine ⟨fun k => ?decoding, fun key s => exec_twistedTab64_of_hash ?cells, fun s => exec_twistedTab64_of_hash ?worked⟩
  case decoding => rw [decode_packCommand, decodeFields_twistedTab64]
  case cells =>
    have hprefix := twistedPrefix_eight s.rom.tt64 key
    rw [cellAddress_zero] at hprefix
    exact twistedHash_of_prefix hprefix
  case worked => exact (twistedTab64_of_table (Bank.read_ofTable Tables.multiples.tt64) rfl).trans (by decide)

/-- Settles O43. The words of the partial accumulator are the exclusive ors of its cells' words. -/
theorem highLowPair : Obligations.HighLowPair := by
  refine ⟨fun m key => twistedHash_of_words (by decide) ?lo32 ?hi32,
    fun m key => twistedHash_of_words (by decide) ?lo64 ?hi64⟩
  case lo32 | hi32 =>
    simp only [twistedPrefix_four, BitVec.extractLsb'_xor]
    rfl
  case lo64 | hi64 =>
    simp only [twistedPrefix_eight, BitVec.extractLsb'_xor]
    rfl

/-- Settles O44. The partial accumulator reads zeros, and the four operations over banks of zeros are those of R94. -/
theorem zeroTableTwist : Obligations.ZeroTableTwist := by
  refine ⟨fun m h key => ?narrow, fun m h key => ?wide, fun s h i => ?operations⟩
  case narrow =>
    have hprefix : twistedPrefix 4 m.tt32 key = 0#64 :=
      twistedPrefix_of_zero (fun a ha => h a (ha.trans (by decide))) key
    exact ⟨hprefix, twistedCharacter_of_prefix_zero hprefix, twistedHash_of_zero (by decide) h key⟩
  case wide =>
    have hprefix : twistedPrefix 8 m.tt64 key = 0#128 :=
      twistedPrefix_of_zero (fun a ha => h a (ha.trans (by decide))) key
    exact ⟨hprefix, twistedCharacter_of_prefix_zero hprefix, twistedHash_of_zero (by decide) h key⟩
  case operations =>
    obtain ⟨hsimple32, htwisted32, hsimple64, htwisted64⟩ := zeroTable
    cases i with
    | simpleTab32 key => exact hsimple32 s (h .st32) key
    | twistedTab32 key => exact htwisted32 s (h .tt32) key
    | simpleTab64 key => exact hsimple64 s (h .st64) key
    | twistedTab64 key => exact htwisted64 s (h .tt64) key

/-- Settles O45. A partial accumulator of 0 leaves the last row's cell at the key's last byte. -/
theorem twistedZeroPrefix : Obligations.TwistedZeroPrefix := by
  refine ⟨fun s h key => ?narrow, fun s h key => ?wide⟩
  case narrow =>
    have hprefix : twistedPrefix 4 s.rom.tt32 key = 0#64 := twistedPrefix_of_zero h key
    exact ⟨hprefix, twistedCharacter_of_prefix_zero hprefix,
      exec_twistedTab32_of_hash (twistedHash_of_prefix_zero hprefix)⟩
  case wide =>
    have hprefix : twistedPrefix 8 s.rom.tt64 key = 0#128 := twistedPrefix_of_zero h key
    exact ⟨hprefix, twistedCharacter_of_prefix_zero hprefix,
      exec_twistedTab64_of_hash (twistedHash_of_prefix_zero hprefix)⟩

/-- Settles O46. Both blocks are the twisted hash, at four and at eight rows. -/
theorem twistedSensitivity : Obligations.TwistedSensitivity :=
  ⟨fun m _ _ _ h hne => ⟨fun hj => twisted_sensitivity_last h hne hj m.tt32,
      fun hj => twisted_sensitivity_earlier h hj m.tt32⟩,
    fun m _ _ _ h hne => ⟨fun hj => twisted_sensitivity_last h hne hj m.tt64,
      fun hj => twisted_sensitivity_earlier h hj m.tt64⟩⟩

/-- Settles O47. Both blocks are the twisted hash, and their live bits are those of `twistedHash_congr_live`. -/
theorem deadTableBits : Obligations.DeadTableBits :=
  ⟨fun _ _ hprefix hlast key => twistedHash_congr_live (by decide) hprefix hlast key,
    fun _ _ hprefix hlast key => twistedHash_congr_live (by decide) hprefix hlast key⟩

end

section
/-! PROOFS. The engine (42_engine.md): `Hash` and its operand, the step that accepts a command and the step after it, and
runs over a sequence of inputs, whose registers and sampled responses are those of the inputs one by one. -/

namespace Sys2Proof.Machine

/-- Under one selector, key fields that agree in the bits in use have one hash (30_encoding.md R72). -/
theorem hash_congr_usedKey (m : Memory) {v : Variant} {k k' : KeyField} (hlow : k.extractLsb' 0 32 = k'.extractLsb' 0 32)
    (hwide : v.getLsbD 1 = true → k = k') : hash m v k = hash m v k' := by
  have hnarrow : k.setWidth 32 = k'.setWidth 32 := by
    rw [BitVec.setWidth_eq_extractLsb' (by decide), hlow, BitVec.setWidth_eq_extractLsb' (by decide)]
  rcases variant_cases v with rfl | rfl | rfl | rfl
  · rw [hash_simpleTab32, hash_simpleTab32, hnarrow]
  · rw [hash_twistedTab32, hash_twistedTab32, hnarrow]
  · rw [hwide rfl]
  · rw [hwide rfl]

/-- A 32-bit hash on the 64-bit response port leaves bits 63 to 32 at 0 (42_engine.md R132). -/
theorem extractLsb'_upper_setWidth (x : BitVec 32) : (x.setWidth 64).extractLsb' 32 32 = 0#32 := by
  apply BitVec.eq_of_getLsbD_eq
  intro i _
  simp

/-- The pins of a command are answered with the hash of its two fields (42_engine.md R136). -/
theorem response_command (m : Memory) (v : Variant) (k : KeyField) :
    response m (Pins.input ⟨false, true, v, k⟩) = (true, hash m v k) := by
  rw [Pins.input_command, response, packCommand_variant, packCommand_keyField]

/-- A step with `rst` = 0 and `req_valid` = 1 accepts its command, whatever waits behind it (42_engine.md R134). -/
theorem step_accepts (s : State) (v : Variant) (k : KeyField) (rest : List Pins) :
    step { s with inputs := ⟨false, true, v, k⟩ :: rest } =
      .next (State.respond (hash s.rom v k) { s with inputs := rest }) := by
  rw [step_cons, response_command]
  rfl

/-- A response stands for one step: the next step writes the outcome of its own input over it (42_engine.md R133). -/
theorem step_respond_cons (s : State) (value : BitVec 64) (p : Pins) (rest : List Pins) :
    step (State.respond value { s with inputs := p :: rest }) =
      .next (State.setOutputs (response s.rom p.input).1 (response s.rom p.input).2 { s with inputs := rest }) :=
  (step_setOutputs _ true value).trans (step_cons s p rest)

/-- A run that ends on a given input leaves the registers at that input's response: of the earlier inputs, and of the
registers before the run, nothing is left (42_engine.md R136). -/
theorem run_append_cons (s : State) (before : List Pins) (p : Pins) (rest : List Pins) :
    run (before.length + 1) { s with inputs := before ++ p :: rest } =
      .next (State.setOutputs (response s.rom p.input).1 (response s.rom p.input).2 { s with inputs := rest }) := by
  induction before with
  | nil => exact run_succ (step_cons s p rest) 0
  | cons q before ih =>
    calc run (before.length + 1 + 1) { s with inputs := q :: (before ++ p :: rest) }
      _ = run (before.length + 1) (State.setOutputs (response s.rom q.input).1 (response s.rom q.input).2
            { s with inputs := before ++ p :: rest }) := run_succ (step_cons s q _) _
      _ = run (before.length + 1) { s with inputs := before ++ p :: rest } :=
        run_succ_congr (step_setOutputs ..) _
      _ = _ := ih

/-- A run that ends on a command responds with its hash (42_engine.md R136). -/
theorem run_append_command (s : State) (before : List Pins) (v : Variant) (k : KeyField) (rest : List Pins) :
    run (before.length + 1) { s with inputs := before ++ ⟨false, true, v, k⟩ :: rest } =
      .next (State.respond (hash s.rom v k) { s with inputs := rest }) := by
  rw [run_append_cons, response_command]
  rfl

/-- The responses sampled from now on do not depend on the response that stands now (10_state.md R33). -/
@[simp] theorem responses_setOutputs (k : Nat) (s : State) (valid : Bool) (value : BitVec 64) :
    responses k (s.setOutputs valid value) = responses k s := by
  cases k with
  | zero => rfl
  | succ k =>
    have hstep := step_eq_response s
    rw [responses_succ hstep, responses_succ ((step_setOutputs s valid value).trans hstep)]

/-- The first input is accepted, or not, by itself (42_engine.md R134). -/
theorem acceptedCommands_cons (p : Pins) (rest : List Pins) :
    acceptedCommands (p :: rest) = acceptedCommands [p] ++ acceptedCommands rest := by
  rw [acceptedCommands, acceptedCommands]
  cases p.input with
  | reset => rfl
  | idle => rfl
  | cmd w => rfl

/-- After a step over one input the host samples the hash of its command if it was one, and else nothing
(42_engine.md R133). -/
theorem responseOf_setOutputs_response (m : Memory) (p : Pins) (s : State) :
    (s.setOutputs (response m p.input).1 (response m p.input).2).responseOf =
      (acceptedCommands [p]).map (fun w => hash m w.variant w.keyField) := by
  rw [acceptedCommands]
  cases p.input with
  | reset => rfl
  | idle => rfl
  | cmd w => rfl

/-- The responses sampled over a sequence of inputs are the hashes of its accepted commands, in order
(42_engine.md R133). -/
theorem responses_eq_map_hash (s : State) (ps rest : List Pins) :
    responses ps.length { s with inputs := ps ++ rest } =
      (acceptedCommands ps).map (fun w => hash s.rom w.variant w.keyField) := by
  induction ps with
  | nil => rfl
  | cons p ps ih =>
    rw [List.length_cons, List.cons_append, responses_succ (step_cons s p _), responseOf_setOutputs_response,
      responses_setOutputs, ih, acceptedCommands_cons p ps, List.map_append]

end Sys2Proof.Machine

open Sys2Proof Sys2Proof.Machine

/-- Settles O7. Each selector's equation for `hash` names one bank, and a 32-bit hash is placed by zero extension. -/
theorem hashDispatch : Obligations.HashDispatch := by
  intro m k
  have hlow : k.setWidth 32 = k.extractLsb' 0 32 := BitVec.setWidth_eq_extractLsb' (by decide)
  refine ⟨?simple32, ?twisted32, hash_simpleTab64 m k, hash_twistedTab64 m k,
    fun m' => ⟨?ownSimple32, ?ownTwisted32, ?ownSimple64, ?ownTwisted64⟩, extractLsb'_upper_setWidth _, extractLsb'_upper_setWidth _⟩
  case simple32 => rw [hash_simpleTab32, hlow]
  case twisted32 => rw [hash_twistedTab32, hlow]
  case ownSimple32 => rw [hash_simpleTab32, hash_simpleTab32]
  case ownTwisted32 => rw [hash_twistedTab32, hash_twistedTab32]
  case ownSimple64 => rw [hash_simpleTab64, hash_simpleTab64]
  case ownTwisted64 => rw [hash_twistedTab64, hash_twistedTab64]

/-- Settles O8. A step writes both registers with the response of its input, whichever of the three it is. -/
theorem stepTransition : Obligations.StepTransition := by
  refine ⟨fun s p rest => ?transition, fun s => ⟨_, step_eq_response s⟩, step_setOutputs⟩
  case transition =>
    rw [step_cons]
    cases p.input with
    | reset => rfl
    | idle => rfl
    | cmd w => rfl

/-- Settles O19. The command's step accepts it while `p` waits; only the following step, over `p`, can clear it. -/
theorem commandNeverWithdrawn : Obligations.CommandNeverWithdrawn := by
  intro s v k p rest
  refine ⟨_, _, step_accepts s v k (p :: rest), rfl, rfl, rfl, step_respond_cons s _ p rest, rfl, fun hrst => ?reset⟩
  case reset =>
    rw [Pins.input_of_rst hrst]
    exact ⟨rfl, rfl⟩

/-- Settles O20. Each run ends on its command and responds with its hash, which depends on the used key bits alone. -/
theorem commandsIndependent : Obligations.CommandsIndependent := by
  intro s s' before before' rest rest' v k k' hrom hlow hwide
  refine ⟨_, _, run_append_command s before v k rest, run_append_command s' before' v k' rest', rfl, rfl, ?sameHash⟩
  case sameHash =>
    rw [State.respond_outHash, State.respond_outHash, hrom]
    exact hash_congr_usedKey s'.rom hlow hwide

/-- Settles O21. By induction on the inputs before the one observed (`run_append_cons`). -/
theorem transactionView : Obligations.TransactionView := by
  intro s before p rest
  rw [run_append_cons]
  cases p.input with
  | reset => rfl
  | idle => rfl
  | cmd w => rfl

/-- Settles O22. The order by induction on the inputs; the one step from the step after an accepted command. -/
theorem responsesInOrder : Obligations.ResponsesInOrder :=
  ⟨responses_eq_map_hash, fun s v k p rest =>
    ⟨_, _, step_accepts s v k (p :: rest), rfl, step_respond_cons s _ p rest, rfl⟩⟩

end

section
/-! PROOFS. Exceptions (60_exceptions.md): every operation responds with the hash of its own fields, so there is nothing to
raise, and the one coincidence there can be, `rst` with a command, is a Reset step. -/

namespace Sys2Proof.Machine

/-- A 32-bit key is recovered from the key field that the assembler form writes it in (30_encoding.md R72, R76). -/
theorem setWidth_narrowKey (key : BitVec 32) : (key.setWidth 64).setWidth 32 = key := by
  rw [BitVec.setWidth_setWidth_of_le key (by decide), BitVec.setWidth_eq]

/-- All an operation can do: it responds with the hash of its own selector and key field, whatever the key and the ROM
(42_engine.md R132, 60_exceptions.md R150). -/
theorem exec_eq_respond_hash (i : Instr) (s : State) :
    exec i s = .next (s.respond (hash s.rom i.variant i.keyField)) := by
  cases i with
  | simpleTab32 key => rw [exec_simpleTab32, Instr.variant, Instr.keyField, hash_simpleTab32, setWidth_narrowKey]
  | twistedTab32 key => rw [exec_twistedTab32, Instr.variant, Instr.keyField, hash_twistedTab32, setWidth_narrowKey]
  | simpleTab64 key => rw [exec_simpleTab64, Instr.variant, Instr.keyField, hash_simpleTab64]
  | twistedTab64 key => rw [exec_twistedTab64, Instr.variant, Instr.keyField, hash_twistedTab64]

end Sys2Proof.Machine

open Sys2Proof Sys2Proof.Machine

/-- Settles O5. A response writes the two output registers and nothing else, and each operation is one response. -/
theorem execNeverStops : Obligations.ExecNeverStops :=
  exec_eq_respond_hash

/-- Settles O13. Both steps have `rst` = 1, and such a step does not read the request pins (`step_of_rst`). -/
theorem resetBeatsCommand : Obligations.ResetBeatsCommand := by
  intro s v k rest
  refine ⟨step_of_rst s rfl rest, ?sameStep⟩
  case sameStep =>
    calc step { s with inputs := ⟨true, true, v, k⟩ :: rest }
      _ = .next (State.resetOutputs { s with inputs := rest }) := step_of_rst s rfl rest
      _ = step { s with inputs := ⟨true, false, 0b00#2, 0#64⟩ :: rest } := (step_of_rst s rfl rest).symm

end

section
/-! PROOFS. `rst` held (70_reset_and_hazards.md): each step of it is a Reset step, and a Reset step over the state that
another one left changes nothing but the inputs that wait. -/

namespace Sys2Proof.Machine

/-- `rst` may be held: a run of one or more inputs that all have `rst` = 1 leaves what its last Reset step leaves
(70_reset_and_hazards.md R170). -/
theorem run_of_forall_rst (s : State) (p : Pins) (held rest : List Pins) (hrst : ∀ q ∈ p :: held, q.rst = true) :
    run (held.length + 1) { s with inputs := p :: held ++ rest } =
      .next (State.resetOutputs { s with inputs := rest }) := by
  induction held generalizing s p with
  | nil => exact run_succ (step_of_rst s (hrst p (List.mem_singleton_self p)) rest) 0
  | cons q held ih =>
    obtain ⟨hp, hheld⟩ := List.forall_mem_cons.mp hrst
    calc run (held.length + 1 + 1) { s with inputs := p :: (q :: held ++ rest) }
      _ = run (held.length + 1) { s.resetOutputs with inputs := q :: held ++ rest } := run_succ (step_of_rst s hp _) _
      _ = .next (State.resetOutputs { s.resetOutputs with inputs := rest }) := ih s.resetOutputs q hheld
      _ = .next (State.resetOutputs { s with inputs := rest }) := rfl

end Sys2Proof.Machine

open Sys2Proof Sys2Proof.Machine

/-- Settles O14. By induction on the steps for which `rst` is held (`run_of_forall_rst`); the request pins are not read. -/
theorem resetHeld : Obligations.ResetHeld := by
  intro s first held rest
  have hrst : ∀ q ∈ (first :: held).map (fun q => (⟨true, q.1, q.2.1, q.2.2⟩ : Pins)), q.rst = true :=
    List.forall_mem_map.mpr fun _ _ => rfl
  have hrun := run_of_forall_rst s _ _ rest hrst
  rwa [List.length_map] at hrun

end

section
/-! PROOFS. The machine's invariant (10_state.md R22, 20_memory.md R40), and what an operation and a run of any length
leave beside the output registers. -/

namespace Sys2Proof.Machine

/-- The invariant, taken apart. -/
theorem State.inv_iff (s : State) : s.inv = true ↔ s.rom.wf = true ∧ s.settled = true := by
  rw [State.inv, Bool.and_eq_true]

/-- Every response is settled: the one of a command is valid, and the other two are 0 (10_state.md R22). -/
theorem settled_setOutputs_response (m : Memory) (i : Input) (s : State) :
    (s.setOutputs (response m i).1 (response m i).2).settled = true := by
  cases i with
  | reset => rfl
  | idle => rfl
  | cmd w => rfl

/-- A step leaves the outputs settled, whatever they were before. -/
theorem step_settled {s t : State} (h : step s = .next t) : t.settled = true := by
  rw [step_eq_response] at h
  cases h
  exact settled_setOutputs_response ..

/-- A 32-bit operation's hash leaves bits 63 to 32 at 0 (42_engine.md R132). -/
theorem extractLsb'_upper_hash (m : Memory) {v : Variant} (hnarrow : v.getLsbD 1 = false) (k : KeyField) :
    (hash m v k).extractLsb' 32 32 = 0#32 := by
  rcases variant_cases v with rfl | rfl | rfl | rfl
  · rw [hash_simpleTab32, extractLsb'_upper_setWidth]
  · rw [hash_twistedTab32, extractLsb'_upper_setWidth]
  · cases hnarrow
  · cases hnarrow

/-- A step takes one input record while there is one (log entry 3). -/
theorem step_inputs {s t : State} (h : step s = .next t) : t.inputs = s.inputs.tail := by
  rw [step_eq_response] at h
  cases h
  rw [State.setOutputs_inputs]
  rcases takeInput_cases s with ⟨hnil, htake⟩ | ⟨p, rest, hcons, htake⟩
  · rw [htake, hnil, List.tail_nil]
  · rw [htake, hcons, List.tail_cons]

/-- A run of any length completes, with one input record taken in each step. -/
theorem exists_run_eq_next (k : Nat) (s : State) : ∃ t, run k s = .next t ∧ t.inputs = s.inputs.drop k := by
  induction k generalizing s with
  | zero => exact ⟨s, run_zero s, List.drop_zero.symm⟩
  | succ k ih =>
    have hstep := step_eq_response s
    obtain ⟨t, hrun, hinputs⟩ := ih _
    refine ⟨t, (run_succ hstep k).trans hrun, ?_⟩
    rw [hinputs, step_inputs hstep, List.drop_tail]

/-- A step with no input record left is an Idle step (log entry 3). -/
theorem step_nil (s : State) : step { s with inputs := [] } = .next (State.noResponse { s with inputs := [] }) := rfl

end Sys2Proof.Machine

open Sys2Proof Sys2Proof.Machine

/-- Settles O23. The ROM is the one before the step, and a step writes a settled response over any outputs. -/
theorem stepKeepsCanonicalRomAndSettledOutputs : Obligations.StepKeepsCanonicalRomAndSettledOutputs := by
  intro s t hinv hstep
  obtain ⟨hwf, -⟩ := s.inv_iff.mp hinv
  rw [State.inv_iff, step_rom hstep]
  exact ⟨hwf, step_settled hstep⟩

/-- Settles O24. The ROM at reset is filled with a TABLE, and both registers are 0. -/
theorem resetIsCanonicalAndSettled : Obligations.ResetIsCanonicalAndSettled :=
  State.reset.inv_iff.mpr ⟨Memory.wf_ofTable Config.table, rfl⟩

/-- Settles O6. Every operation responds with the hash of its own fields, and a response writes the registers alone. -/
theorem execFrame : Obligations.ExecFrame := by
  intro i s t h
  rw [exec_eq_respond_hash] at h
  cases h
  exact ⟨fun b a => by rw [State.respond_rom], State.respond_rom .., State.respond_inputs .., State.respond_outValid ..,
    fun hnarrow => extractLsb'_upper_hash s.rom hnarrow i.keyField⟩

/-- Settles O18. By induction on the number of steps (`exists_run_eq_next`). -/
theorem everyRunCompletes : Obligations.EveryRunCompletes :=
  exists_run_eq_next

/-- Settles O11. With no record left the step takes Idle, which clears both registers. -/
theorem noInputIsIdle : Obligations.NoInputIsIdle :=
  step_nil

end

section
/-! PROOFS. The encoder (30_encoding.md): decoding undoes it, it undoes decoding but for the ignored bits, and a step over
an encoded or numbered command runs the operation. -/

namespace Sys2Proof

/-- A 32-bit key is the lower half of the key field that the assembler form writes it in (30_encoding.md R72, R76). -/
theorem extractLsb'_narrowKey (key : BitVec 32) : (key.setWidth 64).extractLsb' 0 32 = key := by
  rw [← BitVec.setWidth_eq_extractLsb' (by decide), Machine.setWidth_narrowKey]

/-- The assembler form of a 32-bit operation clears the upper half of the key field (30_encoding.md R76). -/
theorem setWidth_extractLsb'_narrow (k : KeyField) :
    (k.extractLsb' 0 32).setWidth 64 = k &&& 0xFFFFFFFF#64 := by
  apply BitVec.eq_of_toNat_eq
  have hmod : k.toNat % 2 ^ 32 < 2 ^ 64 := (Nat.mod_lt _ (by decide)).trans (by decide)
  rw [← BitVec.setWidth_eq_extractLsb' (by decide), BitVec.toNat_setWidth, BitVec.toNat_setWidth, BitVec.toNat_and,
    Nat.mod_eq_of_lt hmod]
  exact (Nat.and_two_pow_sub_one_eq_mod k.toNat 32).symm

/-- An operation is decoded from its own selector and key field (30_encoding.md R71, R72). -/
theorem decodeFields_variant_keyField (i : Instr) : decodeFields i.variant i.keyField = i := by
  cases i with
  | simpleTab32 key => rw [Instr.variant, Instr.keyField, decodeFields_simpleTab32, extractLsb'_narrowKey]
  | twistedTab32 key => rw [Instr.variant, Instr.keyField, decodeFields_twistedTab32, extractLsb'_narrowKey]
  | simpleTab64 key => rw [Instr.variant, Instr.keyField, decodeFields_simpleTab64]
  | twistedTab64 key => rw [Instr.variant, Instr.keyField, decodeFields_twistedTab64]

/-- Decoding undoes encoding. -/
theorem decode_encode (i : Instr) : decode (encode i) = i := by
  rw [encode, decode_packCommand, decodeFields_variant_keyField]

/-- No instruction is ill-formed (30_encoding.md R74). -/
theorem Instr.wellFormed_eq_true (i : Instr) : i.wellFormed = true := by
  cases i <;> rfl

/-- The key field of a decoded operation: all of it for WIDE = 1, its lower half for WIDE = 0 (30_encoding.md R72). -/
theorem keyField_decodeFields (v : Variant) (k : KeyField) :
    (decodeFields v k).keyField = if v.getLsbD 1 then k else k &&& 0xFFFFFFFF#64 := by
  rcases variant_cases v with rfl | rfl | rfl | rfl
  · exact setWidth_extractLsb'_narrow k
  · exact setWidth_extractLsb'_narrow k
  · rfl
  · rfl

/-- Clearing CMD[63:32] clears the upper half of the key field and keeps the selector (30_encoding.md R70). -/
theorem packCommand_and_usedBits (v : Variant) (k : KeyField) :
    packCommand v k &&& 0x300000000FFFFFFFF#66 = packCommand v (k &&& 0xFFFFFFFF#64) := by
  have hmask : 0x300000000FFFFFFFF#66 = 0b11#2 ++ 0xFFFFFFFF#64 := by decide
  have hv : v &&& 0b11#2 = v := BitVec.and_allOnes
  rw [hmask, packCommand, packCommand, BitVec.and_append, hv]

/-- Encoding undoes decoding, but for the bits that a 32-bit operation ignores. -/
theorem encode_decode (w : CommandWord) :
    encode (decode w) = if w.getLsbD 65 then w else w &&& 0x300000000FFFFFFFF#66 := by
  have hencode : encode (decode w) =
      packCommand w.variant (if w.variant.getLsbD 1 then w.keyField else w.keyField &&& 0xFFFFFFFF#64) := by
    rw [encode, decode, variant_decodeFields, keyField_decodeFields]
  rw [hencode, CommandWord.getLsbD_wide]
  split
  · exact packCommand_fields w
  · rw [← packCommand_and_usedBits, packCommand_fields]

end Sys2Proof

namespace Sys2Proof.Machine

/-- A step whose pins present a command word runs the decoded instruction and gives back the other inputs. -/
theorem step_presentCommand (w : CommandWord) (s : State) : step (presentCommand w s) = exec (decode w) s :=
  (step_command s w.variant w.keyField s.inputs).trans (by rw [packCommand_fields])

/-- The instruction that a table row's number reads is the decoding of the word with that number. -/
theorem decode_of_decodeTableWord {nbits n : Nat} {i : Instr} (h : decodeTableWord nbits n = some i) :
    decode (BitVec.ofNat 66 (tableWord nbits n)) = i := by
  rw [decodeTableWord] at h
  rcases decodeRaw_cases (tableWord nbits n) with ⟨-, hraw⟩ | ⟨-, hraw⟩
  · rw [hraw] at h
    exact Option.some.inj h
  · rw [hraw] at h
    cases h

end Sys2Proof.Machine

open Sys2Proof Sys2Proof.Machine

/-- Settles O30. The encoder packs the fields that the decoder reads, and a 32-bit key loses only zeros. -/
theorem decodeEncode : Obligations.DecodeEncode :=
  ⟨Instr.wellFormed_eq_true, decode_encode⟩

/-- Settles O31. The decoding keeps the selector and the key bits in use, and clearing the others is masking the word. -/
theorem encodeDecode : Obligations.EncodeDecode :=
  encode_decode

/-- Settles O9. The pins present the word packed from the two request pins. -/
theorem stepRunsDecodedCommand : Obligations.StepRunsDecodedCommand :=
  step_command

/-- Settles O10. `withFetchWord` presents the word whose decoding `decodeTableWord` reads. -/
theorem fetchWordRunsTableInstruction : Obligations.FetchWordRunsTableInstruction := by
  intro s nbits n i h
  rw [State.withFetchWord, step_presentCommand, decode_of_decodeTableWord h]

/-- Settles O32. Each written word is its selector packed over its key field. -/
theorem decodesWrittenWords : Obligations.DecodesWrittenWords :=
  ⟨decode_packCommand 0b00#2 0x01020304#64, decode_packCommand 0b01#2 0x01020304#64,
    decode_packCommand 0b10#2 0x0102030405060708#64, decode_packCommand 0b11#2 0x0102030405060708#64,
    decode_packCommand 0b01#2 0xDEADBEEF01020304#64⟩

end

section
/-! PROOFS. The canonical form (log entry 2): a canonical bank is known by what it reads, so it is the listing of exactly
one table. -/

namespace Sys2Proof.Machine

variable {w : Nat}

/-- Every word address is that of its quotient and remainder by the 256 columns (20_memory.md R41). -/
theorem cellAddress_div_ofNat (a : Nat) : cellAddress (a / 256) (BitVec.ofNat 8 a) = a := by
  rw [cellAddress, BitVec.toNat_ofNat]
  exact Nat.div_add_mod' a 256

/-- A canonical bank lists no cell that an unlisted address reads as. -/
theorem Bank.read_first_ne_zero {size low a : Nat} {v : BitVec w} {rest : Bank w}
    (h : Bank.wfFrom size low ((a, v) :: rest) = true) : Bank.read ((a, v) :: rest) a ≠ 0#w := by
  obtain ⟨-, -, hv, -⟩ := Bank.wfFrom_cons.mp h
  rwa [Bank.read_cons_self]

/-- Of canonical banks that read the same, neither lists its first cell before the other: that address would read as an
unlisted cell in the other. -/
theorem Bank.first_le_of_read_eq {size low low' a a' : Nat} {v v' : BitVec w} {rest rest' : Bank w}
    (h : Bank.wfFrom size low ((a, v) :: rest) = true) (h' : Bank.wfFrom size low' ((a', v') :: rest') = true)
    (hread : ∀ x, Bank.read ((a, v) :: rest) x = Bank.read ((a', v') :: rest') x) : a' ≤ a := by
  obtain ⟨-, ha', hv', hrest'⟩ := Bank.wfFrom_cons.mp h'
  have hfrom : Bank.wfFrom size a' ((a', v') :: rest') = true := Bank.wfFrom_cons.mpr ⟨le_rfl, ha', hv', hrest'⟩
  by_contra hlt
  exact Bank.read_first_ne_zero h ((hread a).trans (Bank.read_below hfrom (Nat.lt_of_not_le hlt)))

/-- Behind a common first cell, canonical banks that read the same go on reading the same. -/
theorem Bank.read_tail_eq {size a : Nat} {v : BitVec w} {rest rest' : Bank w}
    (h : Bank.wfFrom size (a + 1) rest = true) (h' : Bank.wfFrom size (a + 1) rest' = true)
    (hread : ∀ x, Bank.read ((a, v) :: rest) x = Bank.read ((a, v) :: rest') x) (x : Nat) :
    rest.read x = rest'.read x := by
  by_cases hx : a = x
  · rw [Bank.read_below h (by omega), Bank.read_below h' (by omega)]
  · rw [← Bank.read_cons_ne hx v rest, hread, Bank.read_cons_ne hx]

/-- Canonical banks that read the same are the same data. -/
theorem Bank.eq_of_read_eq {size low low' : Nat} {bank bank' : Bank w} (h : Bank.wfFrom size low bank = true)
    (h' : Bank.wfFrom size low' bank' = true) (hread : ∀ x, bank.read x = bank'.read x) : bank = bank' := by
  induction bank generalizing low low' bank' with
  | nil =>
    cases bank' with
    | nil => rfl
    | cons e' rest' => exact absurd (hread e'.1).symm (Bank.read_first_ne_zero h')
  | cons e rest ih =>
    cases bank' with
    | nil => exact absurd (hread e.1) (Bank.read_first_ne_zero h)
    | cons e' rest' =>
      obtain ⟨a, v⟩ := e
      obtain ⟨a', v'⟩ := e'
      obtain rfl : a = a' :=
        le_antisymm (Bank.first_le_of_read_eq h' h fun x => (hread x).symm) (Bank.first_le_of_read_eq h h' hread)
      obtain rfl : v = v' := by
        have hfirst := hread a
        rwa [Bank.read_cons_self, Bank.read_cons_self] at hfirst
      obtain ⟨-, -, -, hrest⟩ := Bank.wfFrom_cons.mp h
      obtain ⟨-, -, -, hrest'⟩ := Bank.wfFrom_cons.mp h'
      rw [ih hrest hrest' (Bank.read_tail_eq hrest hrest' hread)]

/-- The table a bank reads as, row by row and column by column. -/
def Bank.toTable (rows : Nat) (bank : Bank w) : Fin rows → Byte → BitVec w :=
  fun i c => bank.read (cellAddress i c)

/-- A bank filled with a table reads back as that table. -/
theorem Bank.toTable_ofTable {rows : Nat} (t : Fin rows → Byte → BitVec w) :
    Bank.toTable rows (Bank.ofTable rows t) = t := by
  funext i c
  rw [Bank.toTable, Bank.read_ofTable]

/-- A canonical bank is the listing of the table it reads as. -/
theorem Bank.ofTable_toTable {rows : Nat} {bank : Bank w} (h : bank.wf (rows * 256) = true) :
    Bank.ofTable rows (Bank.toTable rows bank) = bank := by
  have hlisting := Bank.wf_ofTable rows (Bank.toTable rows bank)
  refine Bank.eq_of_read_eq hlisting h fun x => ?_
  by_cases hx : x < rows * 256
  · have hrow : x / 256 < rows := Nat.div_lt_of_lt_mul (by omega)
    rw [← cellAddress_div_ofNat x]
    exact Bank.read_ofTable (Bank.toTable rows bank) ⟨x / 256, hrow⟩ (BitVec.ofNat 8 x)
  · rw [Bank.read_beyond hlisting (by omega), Bank.read_beyond h (by omega)]

/-- The TABLE that a ROM reads as. -/
def Memory.toTable (m : Memory) : Config.Table where
  st32 := m.st32.toTable 4
  tt32 := m.tt32.toTable 4
  st64 := m.st64.toTable 8
  tt64 := m.tt64.toTable 8

/-- A ROM filled with TABLE reads back as TABLE. -/
theorem Memory.toTable_ofTable (t : Config.Table) : (Memory.ofTable t).toTable = t := by
  rw [Memory.toTable, Memory.ofTable_st32, Memory.ofTable_tt32, Memory.ofTable_st64, Memory.ofTable_tt64,
    Bank.toTable_ofTable, Bank.toTable_ofTable, Bank.toTable_ofTable, Bank.toTable_ofTable]

/-- A canonical ROM is the ROM filled with the TABLE it reads as. -/
theorem Memory.ofTable_toTable {m : Memory} (h : m.wf = true) : Memory.ofTable m.toTable = m := by
  simp only [Memory.wf, Bool.and_eq_true] at h
  obtain ⟨⟨⟨hst32, htt32⟩, hst64⟩, htt64⟩ := h
  rw [Memory.ofTable, Memory.toTable, Bank.ofTable_toTable hst32, Bank.ofTable_toTable htt32,
    Bank.ofTable_toTable hst64, Bank.ofTable_toTable htt64]

end Sys2Proof.Machine

open Sys2Proof Sys2Proof.Machine

/-- Settles O36. Reading a ROM as a TABLE and filling a ROM with a TABLE undo each other. -/
theorem canonicalRomsAreTables : Obligations.CanonicalRomsAreTables := by
  refine ⟨fun m => ⟨fun hwf => ⟨m.toTable, (Memory.ofTable_toTable hwf).symm⟩, ?canonical⟩,
    fun t t' => ⟨?injective, congrArg Memory.ofTable⟩⟩
  case canonical =>
    rintro ⟨t, rfl⟩
    exact Memory.wf_ofTable t
  case injective =>
    intro h
    rw [← Memory.toTable_ofTable t, h, Memory.toTable_ofTable]

end

section
/-! PROOFS. The cells an operation reads (20_memory.md section 3): one in each row of its own bank, in an order that cannot
be seen, and its result is made of them alone. -/

namespace Sys2Proof.Machine

variable {c w rows : Nat}

/-- The column at which an operation reads a row: the key's character of the row, twisted in a twisted operation's last
row (20_memory.md R50). -/
def accessColumn (m : Memory) : Instr → Nat → Byte
  | .simpleTab32 key, row => character key row
  | .twistedTab32 key, row => if row < 3 then character key row else twistedCharacter 4 m.tt32 key
  | .simpleTab64 key, row => character key row
  | .twistedTab64 key, row => if row < 7 then character key row else twistedCharacter 8 m.tt64 key

/-- An operation reads each row of its own bank once, from row 0 upward. -/
theorem accesses_eq_map (m : Memory) (i : Instr) :
    accesses m i =
      (List.range' 0 (ownBank i).rows).map fun row => (ownBank i, cellAddress row (accessColumn m i row)) := by
  cases i with
  | simpleTab32 key => rfl
  | twistedTab32 key => rfl
  | simpleTab64 key => rfl
  | twistedTab64 key => rfl

/-- Every cell an operation reads lies in its own bank, inside it (20_memory.md R41, R50). -/
theorem ownBank_of_mem_accesses {m : Memory} {i : Instr} {q : BankId × Nat} (h : q ∈ accesses m i) :
    q.1 = ownBank i ∧ q.2 < (ownBank i).cells := by
  rw [accesses_eq_map] at h
  obtain ⟨row, hmem, rfl⟩ := List.mem_map.mp h
  have hrow : row < (ownBank i).rows := by simpa using hmem
  exact ⟨rfl, cellAddress_lt hrow _⟩

/-- The rows of the cells read are 0 to `n - 1`. -/
theorem accesses_rows (m : Memory) (i : Instr) :
    (accesses m i).map (fun q => q.2 / 256) = List.range' 0 (ownBank i).rows := by
  rw [accesses_eq_map, List.map_map]
  exact (List.map_congr_left fun row _ => cellAddress_div row _).trans (List.map_id _)

/-- The accumulation does not depend on the order of the rows (20_memory.md R52). -/
theorem xorRows_perm {is js : List Nat} (h : is.Perm js) (bank : Bank c) (key : BitVec w) (start : BitVec c) :
    xorRows bank key is start = xorRows bank key js start := by
  rw [xorRows_eq_foldl, xorRows_eq_foldl]
  exact (h.map _).foldl_eq start

/-- The twisted accumulator is the exclusive or of the cells before the last row and of the twisted cell. -/
theorem twistedAccumulator_eq_foldl (bank : Bank c) (key : BitVec w) :
    twistedAccumulator rows bank key =
      (((List.range' 0 (rows - 1)).map fun i => bank.read (cellAddress i (character key i))) ++
        [bank.read (cellAddress (rows - 1) (twistedCharacter rows bank key))]).foldl (· ^^^ ·) 0#c := by
  rw [List.foldl_concat, ← xorRows_eq_foldl]
  rfl

/-- The exclusive or of the cells an operation reads, each once and at its full width, from 0 on (20_memory.md R50). -/
def accumulated (m : Memory) (i : Instr) : BitVec (ownBank i).cellWidth :=
  ((accesses m i).map fun q => memRead m (ownBank i) q.2).foldl (· ^^^ ·) 0#_

/-! Each block from the cells it reads (40_simple.md R90, R91, 41_twisted.md R110, R111). -/

theorem simpleTab32_eq_accumulated (m : Memory) (key : BitVec 32) :
    simpleTab32 m.st32 key = accumulated m (.simpleTab32 key) :=
  xorRows_eq_foldl ..

theorem simpleTab64_eq_accumulated (m : Memory) (key : BitVec 64) :
    simpleTab64 m.st64 key = accumulated m (.simpleTab64 key) :=
  xorRows_eq_foldl ..

theorem twistedTab32_eq_accumulated (m : Memory) (key : BitVec 32) :
    twistedTab32 m.tt32 key = (accumulated m (.twistedTab32 key)).extractLsb' 32 32 := by
  rw [twistedTab32, twistedHash, upperHalf_eq_extract, twistedAccumulator_eq_foldl]
  rfl

theorem twistedTab64_eq_accumulated (m : Memory) (key : BitVec 64) :
    twistedTab64 m.tt64 key = (accumulated m (.twistedTab64 key)).extractLsb' 64 64 := by
  rw [twistedTab64, twistedHash, upperHalf_eq_extract, twistedAccumulator_eq_foldl]
  rfl

/-! A ROM that agrees on the listed cells. -/

/-- The twisted character depends on the cells before the last row alone. -/
theorem twistedCharacter_congr_cells {bank bank' : Bank c} {key : BitVec w}
    (h : ∀ i ∈ List.range' 0 (rows - 1),
      bank'.read (cellAddress i (character key i)) = bank.read (cellAddress i (character key i))) :
    twistedCharacter rows bank' key = twistedCharacter rows bank key := by
  rw [twistedCharacter, twistedCharacter, twistedPrefix, twistedPrefix, xorRows_congr h]

section Footprint

variable {m m' : Memory} {i : Instr} (h : ∀ q ∈ accesses m i, memRead m' q.1 q.2 = memRead m q.1 q.2)
include h

/-- The listed cells decide the list: the twisted cell's address is made of the cells before it. -/
theorem accesses_congr : accesses m' i = accesses m i := by
  cases i with
  | simpleTab32 key => rfl
  | simpleTab64 key => rfl
  | twistedTab32 key =>
    have hchar : twistedCharacter 4 m'.tt32 key = twistedCharacter 4 m.tt32 key :=
      twistedCharacter_congr_cells fun r hr => h _ (List.mem_append_left _ (List.mem_map_of_mem hr))
    rw [accesses, accesses, hchar]
  | twistedTab64 key =>
    have hchar : twistedCharacter 8 m'.tt64 key = twistedCharacter 8 m.tt64 key :=
      twistedCharacter_congr_cells fun r hr => h _ (List.mem_append_left _ (List.mem_map_of_mem hr))
    rw [accesses, accesses, hchar]

/-- The listed cells decide their exclusive or. -/
theorem accumulated_congr : accumulated m' i = accumulated m i := by
  have hcells : ∀ q ∈ accesses m i, memRead m' (ownBank i) q.2 = memRead m (ownBank i) q.2 := by
    intro q hq
    obtain ⟨hbank, -⟩ := ownBank_of_mem_accesses hq
    rw [← hbank]
    exact h q hq
  rw [accumulated, accumulated, accesses_congr h, List.map_congr_left hcells]

/-- The listed cells decide the hash. -/
theorem hash_congr_accesses : hash m' i.variant i.keyField = hash m i.variant i.keyField := by
  have hsum := accumulated_congr h
  cases i with
  | simpleTab32 key =>
    rw [Instr.variant, Instr.keyField, hash_simpleTab32, hash_simpleTab32, setWidth_narrowKey,
      simpleTab32_eq_accumulated, simpleTab32_eq_accumulated, hsum]
  | twistedTab32 key =>
    rw [Instr.variant, Instr.keyField, hash_twistedTab32, hash_twistedTab32, setWidth_narrowKey,
      twistedTab32_eq_accumulated, twistedTab32_eq_accumulated, hsum]
  | simpleTab64 key =>
    rw [Instr.variant, Instr.keyField, hash_simpleTab64, hash_simpleTab64, simpleTab64_eq_accumulated,
      simpleTab64_eq_accumulated, hsum]
  | twistedTab64 key =>
    rw [Instr.variant, Instr.keyField, hash_twistedTab64, hash_twistedTab64, twistedTab64_eq_accumulated,
      twistedTab64_eq_accumulated, hsum]

end Footprint

end Sys2Proof.Machine

open Sys2Proof Sys2Proof.Machine

/-- Settles O37. `accesses_eq_map` gives the footprint; the cells listed decide the list and, through `accumulated`, each
block's result. -/
theorem resultIsOneCellPerRow : Obligations.ResultIsOneCellPerRow := by
  refine ⟨fun m i => ⟨accesses_rows m i, fun q => ownBank_of_mem_accesses, fun m' h => ⟨accesses_congr h, fun s => ?hash⟩⟩,
    fun s x y => ⟨?simple32, ?twisted32, ?simple64, ?twisted64⟩⟩
  case hash =>
    refine ⟨_, exec_eq_respond_hash i { s with rom := m }, ?_⟩
    rw [exec_eq_respond_hash, hash_congr_accesses h]
    rfl
  case simple32 => exact exec_simpleTab32_of_hash (simpleTab32_eq_accumulated s.rom x)
  case twisted32 => exact exec_twistedTab32_of_hash (twistedTab32_eq_accumulated s.rom x)
  case simple64 => exact exec_simpleTab64_of_hash (simpleTab64_eq_accumulated s.rom y)
  case twisted64 => exact exec_twistedTab64_of_hash (twistedTab64_eq_accumulated s.rom y)

/-- Settles O38. Exclusive or is commutative and associative, so permuted rows accumulate one value. -/
theorem readOrderUnobservable : Obligations.ReadOrderUnobservable :=
  fun _ _ _ _ _ h => ⟨xorRows_perm h .., xorRows_perm h .., xorRows_perm h .., xorRows_perm h ..⟩

end

section
/-! PROOFS. The tables TID and TFOLD (95_test_vectors.md section 2): their cells hold the column at its own byte of the
result, so the accumulator collects the key's bytes, and TFOLD's low bytes fold them into the twisted character. -/

namespace Sys2Proof.Machine

variable {c w rows : Nat}

/-! ### Bytes at their places in a word -/

/-- Byte `i` of a word holds `x`, and the other bits are 0. -/
def byteAt (w i : Nat) (x : Byte) : BitVec w := x.setWidth w <<< (8 * i)

/-- The `n` lowest characters of a key, in their places, under zeros. -/
def lowBytes (n : Nat) (key : BitVec w) : BitVec w := (key.extractLsb' 0 (8 * n)).setWidth w

theorem getLsbD_byteAt (x : Byte) {i j : Nat} (hj : j < w) :
    (byteAt w i x).getLsbD j = (decide (8 * i ≤ j) && x.getLsbD (j - 8 * i)) := by
  simp [byteAt, hj, ← decide_not]

theorem getLsbD_lowBytes (n : Nat) (key : BitVec w) {j : Nat} (hj : j < w) :
    (lowBytes n key).getLsbD j = (decide (j < 8 * n) && key.getLsbD j) := by
  simp [lowBytes, hj]

theorem lowBytes_zero (key : BitVec w) : lowBytes 0 key = 0#w := by
  apply BitVec.eq_of_getLsbD_eq
  intro j hj
  rw [getLsbD_lowBytes 0 key hj]
  simp

/-- The next character goes on top of the lowest `n`. -/
theorem lowBytes_xor_byteAt (n : Nat) (key : BitVec w) :
    lowBytes n key ^^^ byteAt w n (character key n) = lowBytes (n + 1) key := by
  apply BitVec.eq_of_getLsbD_eq
  intro j hj
  rw [BitVec.getLsbD_xor, getLsbD_lowBytes n key hj, getLsbD_lowBytes (n + 1) key hj, getLsbD_byteAt _ hj, character,
    BitVec.getLsbD_extractLsb']
  by_cases hlow : j < 8 * n
  · have hnext : j < 8 * (n + 1) := by omega
    have hbelow : ¬8 * n ≤ j := by omega
    simp [hlow, hnext, hbelow]
  · have habove : 8 * n ≤ j := by omega
    have hplace : j - 8 * n < 8 ↔ j < 8 * (n + 1) := by omega
    simp [hlow, habove, hplace]

/-- All characters of a key are the key. -/
theorem lowBytes_eq_self (h : w = 8 * rows) (key : BitVec w) : lowBytes rows key = key := by
  subst h
  rw [lowBytes, BitVec.extractLsb'_eq_self, BitVec.setWidth_eq]

/-- A character over all of a key's lower ones replaces the key's top byte. -/
theorem lowBytes_xor_byteAt_top (n : Nat) (key : BitVec (8 + 8 * n)) (x : Byte) :
    lowBytes n key ^^^ byteAt (8 + 8 * n) n x = x ++ key.extractLsb' 0 (8 * n) := by
  apply BitVec.eq_of_getLsbD_eq
  intro j hj
  rw [BitVec.getLsbD_xor, getLsbD_lowBytes n key hj, getLsbD_byteAt x hj, BitVec.getLsbD_append,
    BitVec.getLsbD_extractLsb']
  by_cases hlow : j < 8 * n
  · have hbelow : ¬8 * n ≤ j := by omega
    simp [hlow, hbelow]
  · have habove : 8 * n ≤ j := by omega
    simp [hlow, habove]

/-- The last character over the lower ones is the key. -/
theorem character_append_extractLsb' (n : Nat) (key : BitVec (8 + 8 * n)) :
    character key n ++ key.extractLsb' 0 (8 * n) = key :=
  (BitVec.extractLsb'_append_extractLsb'_eq_extractLsb' (Nat.zero_add _).symm).trans BitVec.extractLsb'_eq_self

/-! ### Banks whose cells hold the column at the row's byte -/

/-- Where each cell read holds its column at its row's byte, in what `f` keeps of it, `f` keeps of the accumulation the
key's characters in their places. -/
theorem map_xorRows_of_byteAt {n : Nat} {f : BitVec c → BitVec w} (hf : ∀ x y, f (x ^^^ y) = f x ^^^ f y)
    (hzero : f 0#c = 0#w) {bank : Bank c} (hcell : ∀ i x, i < n → f (bank.read (cellAddress i x)) = byteAt w i x)
    (key : BitVec w) : f (xorRows bank key (List.range' 0 n) 0#c) = lowBytes n key := by
  rw [xorRows_map f hf, hzero]
  induction n with
  | zero => exact (lowBytes_zero key).symm
  | succ n ih =>
    rw [List.range'_1_concat, List.foldl_concat, ih fun i x hi => hcell i x (by omega), Nat.zero_add,
      hcell n _ n.lt_succ_self, lowBytes_xor_byteAt]

theorem simpleHash_of_byteAt (hw : w = 8 * rows) {bank : Bank w}
    (hcell : ∀ i x, i < rows → bank.read (cellAddress i x) = byteAt w i x) (key : BitVec w) :
    simpleHash rows bank key = key :=
  (map_xorRows_of_byteAt (f := id) (fun _ _ => rfl) rfl hcell key).trans (lowBytes_eq_self hw key)

/-- Where the upper half of each cell holds its column at its row's byte, the hash is the key with the twisted character
at its top byte. -/
theorem twistedHash_of_byteAt (hrows : 0 < rows) {bank : Bank c}
    (hcell : ∀ i x, i < rows → (bank.read (cellAddress i x)).extractLsb' w w = byteAt w i x) (key : BitVec w) :
    twistedHash rows bank key =
      lowBytes (rows - 1) key ^^^ byteAt w (rows - 1) (twistedCharacter rows bank key) := by
  have hupper : (twistedPrefix rows bank key).extractLsb' w w = lowBytes (rows - 1) key :=
    map_xorRows_of_byteAt (fun _ _ => BitVec.extractLsb'_xor) BitVec.extractLsb'_zero
      (fun i x hi => hcell i x (by omega)) key
  rw [twistedHash, upperHalf_eq_extract, twistedAccumulator, BitVec.extractLsb'_xor, hupper,
    hcell _ _ (Nat.sub_one_lt_of_lt hrows)]

/-! ### Twisted cells: a byte in the upper half, and one in the low byte that enters the twisted character -/

/-- A cell with `x` at byte `i` of its upper half and `low` in its low byte. -/
def twistedCell (c w i : Nat) (x low : Byte) : BitVec c := byteAt c i x <<< w ||| low.setWidth c

theorem extractLsb'_upper_twistedCell (hw : 8 ≤ w) (hc : w + w ≤ c) (i : Nat) (x low : Byte) :
    (twistedCell c w i x low).extractLsb' w w = byteAt w i x := by
  apply BitVec.eq_of_getLsbD_eq
  intro j hj
  have hupper : w + j < c := by omega
  have hbeyond : low.getLsbD (w + j) = false := BitVec.getLsbD_of_ge low _ (by omega)
  have hinside : j < c := by omega
  rw [BitVec.getLsbD_extractLsb', twistedCell, BitVec.getLsbD_or, BitVec.getLsbD_shiftLeft, BitVec.getLsbD_setWidth,
    Nat.add_sub_cancel_left, getLsbD_byteAt x hinside, getLsbD_byteAt x hj, hbeyond]
  simp [hj, hupper]

theorem lowByte_twistedCell (hw : 8 ≤ w) (hc : 8 ≤ c) (i : Nat) (x low : Byte) :
    lowByte (twistedCell c w i x low) = low := by
  apply BitVec.eq_of_getLsbD_eq
  intro j hj
  have hbelow : j < w := by omega
  have hinside : j < c := by omega
  simp [lowByte, twistedCell, hj, hbelow, hinside]

/-- With such cells a twisted hash is its key, with the low bytes of the rows before the last folded into the top byte. -/
theorem twistedHash_of_twistedCell {n : Nat} (hc : 8 + 8 * n + (8 + 8 * n) ≤ c) {bank : Bank c}
    {low : Nat → Byte → Byte}
    (hcell : ∀ i x, i < n + 1 → bank.read (cellAddress i x) = twistedCell c (8 + 8 * n) i x (low i x))
    (key : BitVec (8 + 8 * n)) :
    twistedHash (n + 1) bank key =
      (character key n ^^^ (List.range' 0 n).foldl (fun acc i => acc ^^^ low i (character key i)) 0#8) ++
        key.extractLsb' 0 (8 * n) := by
  have hw : 8 ≤ 8 + 8 * n := Nat.le_add_right ..
  have hlow : lowByte (twistedPrefix (n + 1) bank key) =
      (List.range' 0 n).foldl (fun acc i => acc ^^^ low i (character key i)) 0#8 := by
    rw [twistedPrefix, xorRows_map lowByte lowByte_xor, lowByte, BitVec.extractLsb'_zero]
    refine List.foldl_ext _ _ _ fun acc i hi => ?_
    have hrow : i < n := by simpa using hi
    rw [hcell i _ (by omega), lowByte_twistedCell hw (by omega)]
  have hupper : ∀ i x, i < n + 1 →
      (bank.read (cellAddress i x)).extractLsb' (8 + 8 * n) (8 + 8 * n) = byteAt (8 + 8 * n) i x := by
    intro i x hi
    rw [hcell i x hi, extractLsb'_upper_twistedCell hw hc]
  rw [twistedHash_of_byteAt (rows := n + 1) (Nat.succ_pos n) hupper, Nat.add_sub_cancel,
    lowBytes_xor_byteAt_top, twistedCharacter, hlow, Nat.add_sub_cancel]

/-! ### The cells of TID and TFOLD -/

theorem read_identity_tt32 (i : Nat) (x : Byte) (hi : i < 4) :
    (Memory.ofTable Tables.identity).tt32.read (cellAddress i x) = twistedCell 64 32 i x 0#8 := by
  rw [twistedCell, BitVec.setWidth_zero, BitVec.or_zero]
  exact Bank.read_ofTable Tables.identity.tt32 ⟨i, hi⟩ x

theorem read_identity_tt64 (i : Nat) (x : Byte) (hi : i < 8) :
    (Memory.ofTable Tables.identity).tt64.read (cellAddress i x) = twistedCell 128 64 i x 0#8 := by
  rw [twistedCell, BitVec.setWidth_zero, BitVec.or_zero]
  exact Bank.read_ofTable Tables.identity.tt64 ⟨i, hi⟩ x

theorem read_fold_tt32 (i : Nat) (x : Byte) (hi : i < 4) :
    (Memory.ofTable Tables.fold).tt32.read (cellAddress i x) =
      twistedCell 64 32 i x (if i < 3 then x else 0#8) := by
  rw [twistedCell, apply_ite (BitVec.setWidth 64), BitVec.setWidth_zero]
  exact Bank.read_ofTable Tables.fold.tt32 ⟨i, hi⟩ x

theorem read_fold_tt64 (i : Nat) (x : Byte) (hi : i < 8) :
    (Memory.ofTable Tables.fold).tt64.read (cellAddress i x) =
      twistedCell 128 64 i x (if i < 7 then x else 0#8) := by
  rw [twistedCell, apply_ite (BitVec.setWidth 128), BitVec.setWidth_zero]
  exact Bank.read_ofTable Tables.fold.tt64 ⟨i, hi⟩ x

end Sys2Proof.Machine

open Sys2Proof Sys2Proof.Machine

/-- Settles O48. A simple hash collects the key's bytes; a twisted one too, since TID folds nothing into the top byte. -/
theorem identityTableReturnsKey : Obligations.IdentityTableReturnsKey := by
  intro s x y hrom
  refine ⟨exec_simpleTab32_of_hash ?simple32, exec_twistedTab32_of_hash ?twisted32, exec_simpleTab64_of_hash ?simple64,
    exec_twistedTab64_of_hash ?twisted64⟩
  case simple32 =>
    rw [hrom]
    exact simpleHash_of_byteAt rfl (fun i c hi => Bank.read_ofTable Tables.identity.st32 ⟨i, hi⟩ c) x
  case simple64 =>
    rw [hrom]
    exact simpleHash_of_byteAt rfl (fun i c hi => Bank.read_ofTable Tables.identity.st64 ⟨i, hi⟩ c) y
  case twisted32 =>
    rw [hrom]
    refine (twistedHash_of_twistedCell (n := 3) (by decide) read_identity_tt32 x).trans ?_
    exact (congrArg (· ++ x.extractLsb' 0 24) BitVec.xor_zero).trans (character_append_extractLsb' 3 x)
  case twisted64 =>
    rw [hrom]
    refine (twistedHash_of_twistedCell (n := 7) (by decide) read_identity_tt64 y).trans ?_
    exact (congrArg (· ++ y.extractLsb' 0 56) BitVec.xor_zero).trans (character_append_extractLsb' 7 y)

/-- Settles O49. TFOLD folds the key's lower bytes into the twisted character, which is the hash's top byte. -/
theorem foldTableFoldsTopByte : Obligations.FoldTableFoldsTopByte := by
  intro s x y hrom
  refine ⟨exec_twistedTab32_of_hash ?narrow, exec_twistedTab64_of_hash ?wide⟩
  case narrow =>
    rw [hrom]
    have hbytes : character x 3 ^^^ (0#8 ^^^ character x 0 ^^^ character x 1 ^^^ character x 2) =
        character x 3 ^^^ character x 2 ^^^ character x 1 ^^^ character x 0 := by
      rw [BitVec.zero_xor]
      ac_rfl
    exact (twistedHash_of_twistedCell (n := 3) (by decide) read_fold_tt32 x).trans
      (congrArg (· ++ x.extractLsb' 0 24) hbytes)
  case wide =>
    rw [hrom]
    have hbytes : character y 7 ^^^ (0#8 ^^^ character y 0 ^^^ character y 1 ^^^ character y 2 ^^^ character y 3 ^^^
          character y 4 ^^^ character y 5 ^^^ character y 6) =
        character y 7 ^^^ character y 6 ^^^ character y 5 ^^^ character y 4 ^^^ character y 3 ^^^ character y 2 ^^^
          character y 1 ^^^ character y 0 := by
      rw [BitVec.zero_xor]
      ac_rfl
    exact (twistedHash_of_twistedCell (n := 7) (by decide) read_fold_tt64 y).trans
      (congrArg (· ++ y.extractLsb' 0 56) hbytes)

end
